-- ==== Sys2Proof/Word.lean ====
section
/-! DEFINITION. The words of the datapath and the bytes of the buffers (R6, R8 of 00_scope.md). -/

namespace Sys2Proof

/-- A datapath word, key word, lane or bus data word: 32 bits, unsigned (R6, R8). -/
abbrev Word := BitVec 32

/-- A byte of DBUF or KEYBUF (R10). -/
abbrev Byte := BitVec 8

end Sys2Proof
end

