-- ==== Sys2Proof/Machine/Port.lean ====
section
/-! DEFINITION. The bus target port at transaction level (20_memory.md R40), and what a concrete bus protocol, the
parameter BUS_BINDING (00_scope.md R7), must give: a carrier for these transactions and their responses. -/

namespace Sys2Proof.Machine

/-- The width of a bus access, in bytes 1, 2 or 4 (R40). -/
inductive AccessSize where
  | byte
  | half
  | word
deriving DecidableEq, Repr

/-- A bus transaction (R40): `off` is the byte offset in the window, 0x00..0x3F. -/
inductive Transaction where
  | read (off : BitVec 6) (size : AccessSize)
  | write (off : BitVec 6) (size : AccessSize) (wdata : Word)
deriving DecidableEq, Repr

/-- What the bus port answers (R40). -/
inductive Response where
  | read (rdata : Word) (err : Bool)
  | write (err : Bool)
deriving DecidableEq, Repr

/-- The values on the signals of a bus protocol in one transfer. Which signals there are is the protocol's. -/
abbrev Signals := List Nat

/-- The number of bytes of an access (R40). -/
def AccessSize.bytes : AccessSize → Nat
  | .byte => 1
  | .half => 2
  | .word => 4

/-- The access of a number of bytes (R40). -/
def AccessSize.ofBytes? (n : Nat) : Option AccessSize :=
  match n with
  | 1 => some .byte
  | 2 => some .half
  | 4 => some .word
  | _ => none

/-! The plain signals: each argument of R40 as one number. They show that a binding exists, and the model uses them for
nothing else. -/

/-- A transaction as plain signals. -/
def Transaction.toPlain : Transaction → Signals
  | .read off size => [off.toNat, size.bytes]
  | .write off size w => [off.toNat, size.bytes, w.toNat]

/-- The transaction of plain signals. -/
def Transaction.ofPlain? : Signals → Option Transaction
  | [off, n] => (AccessSize.ofBytes? n).map fun size => .read (BitVec.ofNat 6 off) size
  | [off, n, w] => (AccessSize.ofBytes? n).map fun size => .write (BitVec.ofNat 6 off) size (BitVec.ofNat 32 w)
  | _ => none

/-- A response as plain signals. -/
def Response.toPlain : Response → Signals
  | .read d err => [err.toNat, d.toNat]
  | .write err => [err.toNat]

/-- The response of plain signals. -/
def Response.ofPlain? : Signals → Option Response
  | [err, d] => some (.read (BitVec.ofNat 32 d) (err != 0))
  | [err] => some (.write (err != 0))
  | _ => none

theorem Transaction.ofPlain?_toPlain (t : Transaction) : ofPlain? t.toPlain = some t := by
  rcases t with ⟨off, size⟩ | ⟨off, size, w⟩ <;> cases size <;>
    simp [toPlain, ofPlain?, AccessSize.bytes, AccessSize.ofBytes?]

theorem Response.ofPlain?_toPlain (r : Response) : ofPlain? r.toPlain = some r := by
  rcases r with ⟨d, err⟩ | err <;> cases err <;> simp [toPlain, ofPlain?]

/-- BUS_BINDING (R7, R40): how the transactions map onto a concrete protocol. It must provide them all, and carry the
access size and the error response. The default values only show that there is such a binding. Log 22. -/
structure BusBinding where
  /-- The signals by which a master makes a transaction. -/
  request : Transaction → Signals := Transaction.toPlain
  /-- The transaction that signals stand for, if they stand for one: an idle bus carries none. -/
  accept : Signals → Option Transaction := Transaction.ofPlain?
  /-- The binding provides every transaction of R40, its size with it. -/
  accept_request : ∀ t, accept (request t) = some t := by exact Transaction.ofPlain?_toPlain
  /-- The signals by which the port answers. -/
  answer : Response → Signals := Response.toPlain
  /-- The response a master reads from signals. -/
  readBack : Signals → Option Response := Response.ofPlain?
  /-- The binding carries every response of R40, the error with it. -/
  readBack_answer : ∀ r, readBack (answer r) = some r := by exact Response.ofPlain?_toPlain
  /-- The read data its held-in-reset target answers with (R140), for each free value drawn. Log 9. -/
  heldInResetData : Nat → Word := fun _ => 0
  /-- The error flag its held-in-reset target answers with (R140). Log 9. -/
  heldInResetErr : Nat → Bool := fun _ => false
deriving Inhabited
end Sys2Proof.Machine
end

