-- ==== Sys2Proof/Config.lean ====
section
/-! DEFINITION. What the spec leaves open: the integration parameters of 00_scope.md R7 and the free values.
Every constant is opaque: nothing in Lean can tell its value, so a claim holds whatever it is.
LAT(op, v) has no constant here: time is not modelled (R97, R148; log 16). -/

namespace Sys2Proof

/-- BASE / 64: BASE is a multiple of 64 and otherwise open (R7, D2). Log 14. -/
opaque Config.baseIndex : Nat

/-- `BASE`, the bus address of byte offset 0x00 of the window (R7, R49). -/
def Config.base : Nat := 64 * Config.baseIndex

/-- `BUS_BINDING`, the concrete bus protocol (R7, R21, R40), its held-in-reset target among it (R140). Log 22, log 9. -/
opaque Config.busBinding : Machine.BusBinding

/-- `IRQ_LINE`, the line of the platform's controller that receives `irq` (R7, R126). Log 18. -/
opaque Config.irqLine : Nat

/-- `RESET_STYLE`, its polarity half: does a high `rst` pin mean asserted (R7, R140)? Log 10. -/
opaque Config.resetActiveHigh : Bool

/-- Free value: what word `which` of the lane registers holds after completion number `draw`,
where its value is unspecified (R27, R38). Log 6. -/
opaque Config.freeWord (draw which : Nat) : Word

/-- Free value behind RCNT outside a command in flight (R27, R38). Log 6. -/
opaque Config.freeCount (draw : Nat) : Nat

end Sys2Proof
end

