-- ==== Sys2Proof/Syntax.lean ====
section
/-! DEFINITION. The commands: one constructor per row of spec/opcode_table.json (30_encoding.md R63).
A command has no operand but the fields VAR and SEL of its word (R62). -/

namespace Sys2Proof

inductive Instr where
  /-- LDKEY: load the key and select the variant coded by `var` (R92). -/
  | ldkey (var : BitVec 2)
  /-- ENC1: encrypt block `sel` in place (R93). -/
  | enc1 (sel : BitVec 2)
  /-- DEC1: decrypt block `sel` in place (R94). -/
  | dec1 (sel : BitVec 2)
  /-- ENC4: encrypt all four blocks (R95). -/
  | enc4
  /-- DEC4: decrypt all four blocks (R96). -/
  | dec4
deriving DecidableEq, Repr

end Sys2Proof
end

