-- ==== Sys2Proof/Machine/State.lean ====
section
/-! DEFINITION. The state of the core (10_state.md R20) and of its ports (R37), as plain data; the reasons
a step can stop; the state after reset (R38). -/

namespace Sys2Proof.Machine

/-- Four 32-bit words: the key K[0..3], or one 4-lane vector X or Y (R22, R27). -/
structure Words4 where
  w0 : Word
  w1 : Word
  w2 : Word
  w3 : Word
deriving DecidableEq, Repr

/-- VARIANT (R24). The code 11 is never held, so the type has three values (93_implementation_defined.md
section 2; log 12). -/
inductive Variant where
  | tea16
  | tea32
  | tea64
deriving DecidableEq, Repr

/-- The op of `BUSY(op, sel)` (R28). -/
inductive TransformOp where
  | enc1
  | dec1
  | enc4
  | dec4
deriving DecidableEq, Repr

/-- The sequencer state SEQ (R28), the only control state of the core. -/
inductive Seq where
  | idle
  | busy (op : TransformOp) (sel : BitVec 2)
deriving DecidableEq, Repr

/-- A byte array of the core, DBUF or KEYBUF (R10), in canonical form: addresses strictly rise and no entry
holds 0x00, which is what an unlisted byte reads as, the reset value of R38. Log 13. -/
abbrev Memory := List Host.Cell

/-- The complete state of the core: exactly the fields of R20. -/
structure TeaCore where
  /-- K[0..3] (R22) -/
  k : Words4
  /-- KEY_VALID (R23) -/
  keyValid : Bool
  /-- VARIANT (R24) -/
  variant : Variant
  /-- KEYBUF[0..15] (R25) -/
  keybuf : Memory
  /-- KEYIN_WR[3:0] (R25) -/
  keyinWr : BitVec 4
  /-- DBUF[0..31] (R26) -/
  dbuf : Memory
  /-- SEQ (R28) -/
  seq : Seq
  /-- DONE (R31) -/
  done : Bool
  /-- ERR (R31) -/
  err : Bool
  /-- ERRCODE (R31, R120) -/
  errcode : BitVec 4
  /-- CTRL.IE_DONE (R33) -/
  ieDone : Bool
  /-- CTRL.IE_ERR (R33) -/
  ieErr : Bool
  /-- X[0..3] (R27) -/
  x : Words4
  /-- Y[0..3] (R27) -/
  y : Words4
  /-- SUM (R27) -/
  sum : Word
  /-- RCNT, 7 bits, 0..64 (R20, R27) -/
  rcnt : BitVec 7
deriving DecidableEq, Repr

/-- What can happen next at the core. The core's state changes only at these (R51). Log 1, log 8. -/
inductive Event where
  /-- A bus transaction reaches the port (R40). -/
  | bus (t : Transaction)
  /-- The reference sequencer takes one step: a round, or completion once all rounds are done (R86). -/
  | tick
  /-- The completion step, whatever rounds are still to do (R97; R86 lets a model collapse them). -/
  | complete
  /-- The reset input becomes asserted or released (R140). -/
  | rst (asserted : Bool)
deriving DecidableEq, Repr

/-- The core and its ports. -/
structure State where
  /-- The core's own state (R20). -/
  core : TeaCore
  /-- Is the reset input asserted (R140)? Log 10. -/
  rst : Bool
  /-- What is still to happen, oldest first. Log 1. -/
  pending : List Event
  /-- The responses given on the bus port, newest first. Log 1. -/
  responses : List Response
  /-- How many free values have been drawn. Log 6, log 9. -/
  draws : Nat
deriving DecidableEq, Repr

/-- The reasons to stop with a fault: none. The core has no trap (R123) and its datapath raises nothing
(R120), so no step faults. -/
inductive Fault where
deriving DecidableEq, Repr

/-- The reasons to give an instruction no meaning. -/
inductive Refusal where
  /-- Raised by an arm of `exec` whose instruction has no meaning yet; safe. No arm raises it. -/
  | notModelled (mnemonic : String)
deriving DecidableEq, Repr

/-- The zero value of four words. -/
def Words4.zero : Words4 := ⟨0, 0, 0, 0⟩

/-- The reset values of R38. The lane registers X, Y, SUM and RCNT have none there: DESIGN CHOICE zero (log 5). -/
def TeaCore.reset : TeaCore where
  k := Words4.zero
  keyValid := false
  variant := .tea16
  keybuf := []
  keyinWr := 0
  dbuf := []
  seq := .idle
  done := false
  err := false
  errcode := 0
  ieDone := false
  ieErr := false
  x := Words4.zero
  y := Words4.zero
  sum := 0
  rcnt := 0

/-- The machine right after reset is released (R38, R141): nothing is in flight and nothing pending. -/
def State.reset : State where
  core := TeaCore.reset
  rst := false
  pending := []
  responses := []
  draws := 0

end Sys2Proof.Machine
end

