-- ==== Sys2Proof/Machine/Datapath.lean ====
section
/-! DEFINITION. The pure functions of the commands (40_datapath.md): word operations, lane-wise forms, mixing,
the variant table, and TeaEnc and TeaDec on one word pair and on four lanes. None of them can fail. -/

namespace Sys2Proof.Machine

/-- R70: wrapping addition, the carry discarded. -/
def wordAdd (a b : Word) : Word := a + b

/-- R71: wrapping subtraction, the borrow discarded. -/
def wordSub (a b : Word) : Word := a - b

/-- R72: bitwise exclusive or. -/
def wordXor (a b : Word) : Word := a ^^^ b

/-- R73: left shift by a constant of the datapath. -/
def wordShl (a : Word) (n : Nat) : Word := a <<< n

/-- R74: logical right shift by a constant of the datapath. -/
def wordShr (a : Word) (n : Nat) : Word := a >>> n

/-- Word `i` of four. -/
def Words4.get (v : Words4) (i : BitVec 2) : Word :=
  match i.toNat with
  | 0 => v.w0
  | 1 => v.w1
  | 2 => v.w2
  | _ => v.w3

/-- The four words `f 0, f 1, f 2, f 3`. -/
def Words4.ofLanes (f : BitVec 2 → Word) : Words4 := ⟨f 0, f 1, f 2, f 3⟩

/-- R75: `splat(s)[i] = s`. -/
def splat (s : Word) : Words4 := .ofLanes fun _ => s

/-- R75: lane-wise addition. -/
def vadd (a b : Words4) : Words4 := .ofLanes fun i => wordAdd (a.get i) (b.get i)

/-- R75: lane-wise subtraction. -/
def vsub (a b : Words4) : Words4 := .ofLanes fun i => wordSub (a.get i) (b.get i)

/-- R75: lane-wise exclusive or. -/
def vxor (a b : Words4) : Words4 := .ofLanes fun i => wordXor (a.get i) (b.get i)

/-- R75: lane-wise left shift. -/
def vshl (a : Words4) (n : Nat) : Words4 := .ofLanes fun i => wordShl (a.get i) n

/-- R75: lane-wise logical right shift. -/
def vshr (a : Words4) (n : Nat) : Words4 := .ofLanes fun i => wordShr (a.get i) n

/-- R76: the mixing function. -/
def mix (v s ka kb : Word) : Word :=
  wordXor (wordXor (wordAdd (wordShl v 4) ka) (wordAdd v s)) (wordAdd (wordShr v 5) kb)

/-- R76: the lane-wise mixing function, of the lane-wise operations and splats of R75. -/
def vmix (v : Words4) (s ka kb : Word) : Words4 :=
  vxor (vxor (vadd (vshl v 4) (splat ka)) (vadd v (splat s))) (vadd (vshr v 5) (splat kb))

/-- R77: the constant added to the accumulator once per round. -/
def DELTA : Word := 0x9E3779B9

/-- ROUNDS of the variant table (R24, R77). -/
def Variant.rounds : Variant → Nat
  | .tea16 => 16
  | .tea32 => 32
  | .tea64 => 64

/-- SHIFT of the variant table (R24, R77). -/
def Variant.shift : Variant → Nat
  | .tea16 => 4
  | .tea32 => 5
  | .tea64 => 6

/-- R80: the decryption seed `DELTA << SHIFT(v)`, and no other expression. -/
def decSeed (v : Variant) : Word := wordShl DELTA v.shift

/-- One word pair in the rounds: the accumulator and the words x and y. -/
structure PairState where
  sum : Word
  x : Word
  y : Word
deriving DecidableEq, Repr

/-- The four lanes in the rounds: one scalar accumulator and the vectors X and Y (R85). -/
structure LaneState where
  sum : Word
  x : Words4
  y : Words4
deriving DecidableEq, Repr

/-- One round of R78: sum, then x, then y with the x just updated. -/
def encRound (k : Words4) (p : PairState) : PairState :=
  let sum := wordAdd p.sum DELTA
  let x := wordAdd p.x (mix p.y sum k.w0 k.w1)
  let y := wordAdd p.y (mix x sum k.w2 k.w3)
  ⟨sum, x, y⟩

/-- One round of R79: y, then x with the y just updated, then sum. -/
def decRound (k : Words4) (p : PairState) : PairState :=
  let y := wordSub p.y (mix p.x p.sum k.w2 k.w3)
  let x := wordSub p.x (mix y p.sum k.w0 k.w1)
  let sum := wordSub p.sum DELTA
  ⟨sum, x, y⟩

/-- `n` encryption rounds. -/
def encRounds (k : Words4) (n : Nat) (p : PairState) : PairState := (encRound k)^[n] p

/-- `n` decryption rounds. -/
def decRounds (k : Words4) (n : Nat) (p : PairState) : PairState := (decRound k)^[n] p

/-- `TeaEnc(x, y, K, v)` of R78. -/
def teaEnc (x y : Word) (k : Words4) (v : Variant) : Word × Word :=
  let p := encRounds k v.rounds ⟨0, x, y⟩
  (p.x, p.y)

/-- `TeaDec(x, y, K, v)` of R79. -/
def teaDec (x y : Word) (k : Words4) (v : Variant) : Word × Word :=
  let p := decRounds k v.rounds ⟨decSeed v, x, y⟩
  (p.x, p.y)

/-- The encrypt round step of the 4-lane datapath (R85, R86). -/
def vencRound (k : Words4) (l : LaneState) : LaneState :=
  let sum := wordAdd l.sum DELTA
  let x := vadd l.x (vmix l.y sum k.w0 k.w1)
  let y := vadd l.y (vmix x sum k.w2 k.w3)
  ⟨sum, x, y⟩

/-- The decrypt round step of the 4-lane datapath (R85, R86). -/
def vdecRound (k : Words4) (l : LaneState) : LaneState :=
  let y := vsub l.y (vmix l.x l.sum k.w2 k.w3)
  let x := vsub l.x (vmix y l.sum k.w0 k.w1)
  let sum := wordSub l.sum DELTA
  ⟨sum, x, y⟩

/-- `n` encryption rounds on four lanes. -/
def vencRounds (k : Words4) (n : Nat) (l : LaneState) : LaneState := (vencRound k)^[n] l

/-- `n` decryption rounds on four lanes. -/
def vdecRounds (k : Words4) (n : Nat) (l : LaneState) : LaneState := (vdecRound k)^[n] l

/-- `VTeaEnc(X, Y, K, v)` of R85. -/
def vTeaEnc (x y k : Words4) (v : Variant) : Words4 × Words4 :=
  let l := vencRounds k v.rounds ⟨0, x, y⟩
  (l.x, l.y)

/-- `VTeaDec(X, Y, K, v)` of R85. -/
def vTeaDec (x y k : Words4) (v : Variant) : Words4 × Words4 :=
  let l := vdecRounds k v.rounds ⟨decSeed v, x, y⟩
  (l.x, l.y)

end Sys2Proof.Machine
end

