-- ==== Sys2Proof/WellFormed.lean ====
section
/-! DEFINITION. Which terms of `Instr` are commands of the core (30_encoding.md R63, R64). -/

namespace Sys2Proof

/-- The one check: the variant code 11 is reserved (R61, R63). SEL may be any block index. -/
def Instr.wellFormed : Instr → Bool
  | .ldkey var => var != 3#2
  | .enc1 _ => true
  | .dec1 _ => true
  | .enc4 => true
  | .dec4 => true

end Sys2Proof
end

