-- ==== Sys2Proof/Decode.lean ====
section
/-! DEFINITION. The command word (30_encoding.md): its fields (R61), the decoder (R65), the encoder (R63).
On the bus a command word stands in little-endian byte lanes (20_memory.md R43). -/

namespace Sys2Proof

/-- Why a word is no command: the bullets of R64, and a byte string that is too short.
The hardware reports every one of the word's reasons as ILLEGAL. -/
inductive IllegalReason where
  | reservedBits
  | reservedOpcode
  | reservedVariant
  | nonzeroSel
  | nonzeroVar
  | tooShort
deriving DecidableEq, Repr

/-- `Cmd | Illegal`, the codomain of R65's decode function. -/
inductive Decoded where
  | command (i : Instr)
  | illegal (why : IllegalReason)
deriving DecidableEq, Repr

/-- OP, bits 3:0 (R61). -/
def opField (w : Word) : BitVec 4 := w.extractLsb' 0 4

/-- VAR, bits 5:4 (R61). -/
def varField (w : Word) : BitVec 2 := w.extractLsb' 4 2

/-- RES_MID, bits 7:6 (R61). -/
def resMidField (w : Word) : BitVec 2 := w.extractLsb' 6 2

/-- SEL, bits 9:8 (R61). -/
def selField (w : Word) : BitVec 2 := w.extractLsb' 8 2

/-- RES_HI, bits 31:10 (R61). -/
def resHiField (w : Word) : BitVec 22 := w.extractLsb' 10 22

/-- The decode function of R65, total over all 2^32 words. -/
def decode (w : Word) : Decoded :=
  if resHiField w ≠ 0 ∨ resMidField w ≠ 0 then .illegal .reservedBits
  else match (opField w).toNat with
    | 1 =>
      if selField w ≠ 0 then .illegal .nonzeroSel
      else if varField w = 3 then .illegal .reservedVariant
      else .command (.ldkey (varField w))
    | 2 => if varField w ≠ 0 then .illegal .nonzeroVar else .command (.enc1 (selField w))
    | 3 => if varField w ≠ 0 then .illegal .nonzeroVar else .command (.dec1 (selField w))
    | 4 =>
      if varField w ≠ 0 then .illegal .nonzeroVar
      else if selField w ≠ 0 then .illegal .nonzeroSel
      else .command .enc4
    | 5 =>
      if varField w ≠ 0 then .illegal .nonzeroVar
      else if selField w ≠ 0 then .illegal .nonzeroSel
      else .command .dec4
    | _ => .illegal .reservedOpcode

/-- The instruction of a decoded word, where it is one. -/
def Decoded.instr? : Decoded → Option Instr
  | .command i => some i
  | .illegal _ => none

/-- Little-endian byte lanes of a bus word: byte `b` is the lane at offset `off + b` (R43). -/
def lanesToWord (b0 b1 b2 b3 : Byte) : Word := b3 ++ b2 ++ b1 ++ b0

/-- Byte lane `b` of a bus word, bits `[8b+7 : 8b]` (R43). -/
def lane (w : Word) (b : Nat) : Byte := w.extractLsb' (8 * b) 8

/-- Decode the command whose word stands in the next four bytes, and answer what is left. Log 15. -/
def decodeBytes : List Byte → Decoded × List Byte
  | b0 :: b1 :: b2 :: b3 :: rest => (decode (lanesToWord b0 b1 b2 b3), rest)
  | short => (.illegal .tooShort, short)

/-- The command word `{RES_HI = 0, SEL, RES_MID = 0, VAR, OP}` (R61). -/
def commandWord (sel var : BitVec 2) (op : BitVec 4) : Word := 0#22 ++ sel ++ 0#2 ++ var ++ op

/-- The word of an instruction, from the opcode map of R63. -/
def encode : Instr → Word
  | .ldkey var => commandWord 0 var 1
  | .enc1 sel => commandWord sel 0 2
  | .dec1 sel => commandWord sel 0 3
  | .enc4 => commandWord 0 0 4
  | .dec4 => commandWord 0 0 5

/-- The four bytes of an instruction's word, in lane order (R43). -/
def encodeBytes (i : Instr) : List Byte :=
  [lane (encode i) 0, lane (encode i) 1, lane (encode i) 2, lane (encode i) 3]

/-- The bus word whose low `nbits` bits are those of `w`, all higher bits zero. -/
def tableWord (nbits w : Nat) : Word := BitVec.ofNat 32 (w % 2 ^ nbits)

/-- The instruction the decoder reads from a word numbered as spec/opcode_table.json numbers it. -/
def decodeTableWord (nbits w : Nat) : Option Instr :=
  if 2 ^ 32 ≤ w % 2 ^ nbits then none
  else (decodeBytes [lane (tableWord nbits w) 0, lane (tableWord nbits w) 1, lane (tableWord nbits w) 2,
    lane (tableWord nbits w) 3]).1.instr?

end Sys2Proof
end

