-- ==== Sys2Proof/Machine/Flags.lean ====
section
/-! DEFINITION. The flags: rejection codes (60_exceptions.md R120), the STATUS and CTRL words and what a write of
them does (10_state.md R31 to R33), the interrupt output (R126). -/

namespace Sys2Proof.Machine

/-- The causes of a rejection (R120). -/
inductive RejectCause where
  | illegal
  | keyLen
  | noKey
  | busy
deriving DecidableEq, Repr

/-- The code ERRCODE holds after a rejection (R120). Code 0 is NONE. -/
def RejectCause.code : RejectCause → BitVec 4
  | .illegal => 1
  | .keyLen => 2
  | .noKey => 3
  | .busy => 4

/-- The 2-bit code of a variant (R24). -/
def Variant.code : Variant → BitVec 2
  | .tea16 => 0
  | .tea32 => 1
  | .tea64 => 2

/-- The variant of a 2-bit code; 11 is reserved (R24, R61). -/
def Variant.ofCode? (code : BitVec 2) : Option Variant :=
  match code.toNat with
  | 0 => some .tea16
  | 1 => some .tea32
  | 2 => some .tea64
  | _ => none

/-- STATUS.BUSY reads 1 exactly when SEQ is BUSY (R28). -/
def TeaCore.busy (c : TeaCore) : Bool :=
  match c.seq with
  | .idle => false
  | .busy _ _ => true

/-- What a read of STATUS returns (R31). -/
def TeaCore.statusWord (c : TeaCore) : Word :=
  0#12 ++ c.keyinWr ++ 0#4 ++ c.errcode ++ 0#2 ++ c.variant.code ++ BitVec.ofBool c.keyValid ++
    BitVec.ofBool c.err ++ BitVec.ofBool c.done ++ BitVec.ofBool c.busy

/-- What a read of CTRL returns (R33). -/
def TeaCore.ctrlWord (c : TeaCore) : Word :=
  0#30 ++ BitVec.ofBool c.ieErr ++ BitVec.ofBool c.ieDone

/-- A write of `w` to STATUS: W1C on DONE and ERR, the latter with ERRCODE (R32). -/
def TeaCore.writeStatus (w : Word) (c : TeaCore) : TeaCore :=
  { c with
    done := if w.getLsbD 1 then false else c.done
    err := if w.getLsbD 2 then false else c.err
    errcode := if w.getLsbD 2 then 0 else c.errcode }

/-- A write of `w` to CTRL (R33). -/
def TeaCore.writeCtrl (w : Word) (c : TeaCore) : TeaCore :=
  { c with ieDone := w.getLsbD 0, ieErr := w.getLsbD 1 }

/-- The interrupt output, a level and a function of the current state only (R126). -/
def TeaCore.irq (c : TeaCore) : Bool := (c.done && c.ieDone) || (c.err && c.ieErr)

/-- The level on line `line` of the platform's interrupt controller that comes from this core (R126): `irq` on
IRQ_LINE, nothing on any other. Log 18. -/
def TeaCore.irqOnLine (line : Nat) (c : TeaCore) : Bool := line == Config.irqLine && c.irq

end Sys2Proof.Machine
end

