-- ==== Sys2Proof/Machine/Ops.lean ====
section
/-! DEFINITION. The named operations: bytes of DBUF and KEYBUF, the access primitives of 00_scope.md R10, the bus
view of the buffers (10_state.md R34, R36), and rejection (R12), the one thing the core does in place of a trap. -/

namespace Sys2Proof.Machine

/-- The byte at address `a`; an unlisted byte holds its reset value 0x00 (R38). -/
def Memory.read (m : Memory) (a : Nat) : Byte :=
  match m with
  | [] => 0
  | (b, v) :: rest => if b = a then v else Memory.read rest a

/-- Insert an entry in address order. -/
def Memory.insert (m : Memory) (a : Nat) (v : Byte) : Memory :=
  match m with
  | [] => [(a, v)]
  | (b, w) :: rest => if a < b then (a, v) :: (b, w) :: rest else (b, w) :: Memory.insert rest a v

/-- Drop the entry at `a`. -/
def Memory.erase (m : Memory) (a : Nat) : Memory :=
  match m with
  | [] => []
  | (b, w) :: rest => if b = a then Memory.erase rest a else (b, w) :: Memory.erase rest a

/-- Write byte `v` at address `a`, keeping the canonical form: a zero byte is not listed. -/
def Memory.write (m : Memory) (a : Nat) (v : Byte) : Memory :=
  if v = 0 then Memory.erase m a else Memory.insert (Memory.erase m a) a v

/-- The canonical form from address `lo` up, in an array of `size` bytes. -/
def Memory.wfFrom (lo size : Nat) (m : Memory) : Bool :=
  match m with
  | [] => true
  | (a, v) :: rest => decide (lo ≤ a) && decide (a < size) && (v != 0) && Memory.wfFrom (a + 1) size rest

/-- The canonical form of an array of `size` bytes: addresses below `size`, strictly rising, no zero byte listed. -/
def Memory.wf (size : Nat) (m : Memory) : Bool := Memory.wfFrom 0 size m

/-- The array with every byte 0x00. -/
def Memory.zero : Memory := []

/-- DBUF has 32 bytes (R7, R20). -/
def dbufBytes : Nat := 32

/-- KEYBUF has 16 bytes (R6, R20). -/
def keybufBytes : Nat := 16

/-- `MemRead(a, 4)` of R10, big-endian (R45): `{m[a], m[a+1], m[a+2], m[a+3]}`. -/
def Memory.readBE (m : Memory) (a : Nat) : Word :=
  m.read a ++ m.read (a + 1) ++ m.read (a + 2) ++ m.read (a + 3)

/-- `MemWrite(a, 4, w)` of R10, big-endian (R45). -/
def Memory.writeBE (m : Memory) (a : Nat) (w : Word) : Memory :=
  (((m.write a (lane w 3)).write (a + 1) (lane w 2)).write (a + 2) (lane w 1)).write (a + 3) (lane w 0)

/-- The bus word at byte `a`: `{m[a+3], m[a+2], m[a+1], m[a]}`, byte lane b holding `m[a+b]` (R36, R43). -/
def Memory.readLanes (m : Memory) (a : Nat) : Word :=
  lanesToWord (m.read a) (m.read (a + 1)) (m.read (a + 2)) (m.read (a + 3))

/-- Store a bus word at byte `a`: `m[a+b] <- W[8b+7:8b]` (R34, R36, R43). -/
def Memory.writeLanes (m : Memory) (a : Nat) (w : Word) : Memory :=
  (((m.write a (lane w 0)).write (a + 1) (lane w 1)).write (a + 2) (lane w 2)).write (a + 3) (lane w 3)

/-- `bswap32` of R9. -/
def bswap32 (w : Word) : Word := lane w 0 ++ lane w 1 ++ lane w 2 ++ lane w 3

/-- `raise Reject(code)` of R12: ERR and ERRCODE, nothing else. A rejection is not a trap (R123). -/
def TeaCore.reject (cause : RejectCause) (c : TeaCore) : TeaCore :=
  { c with err := true, errcode := cause.code }

/-- A write of `w` to KEY_IN<i> (R34); taken while BUSY too. -/
def TeaCore.writeKeyIn (i : BitVec 2) (w : Word) (c : TeaCore) : TeaCore :=
  { c with
    keybuf := c.keybuf.writeLanes (4 * i.toNat) w
    keyinWr := c.keyinWr ||| (1#4 <<< i.toNat) }

/-- A write of `w` to DATA<j> (R36): rejected with BUSY while a transform is in flight. -/
def TeaCore.writeData (j : BitVec 3) (w : Word) (c : TeaCore) : TeaCore :=
  if c.busy then c.reject .busy
  else { c with dbuf := c.dbuf.writeLanes (4 * j.toNat) w }

/-- The rejection of a command, as a step of the machine: the next state differs in ERR and ERRCODE only (R90, R123). -/
def State.reject (cause : RejectCause) (s : State) : State := { s with core := s.core.reject cause }

/-- The surroundings after an event: `rest` is still to happen. -/
def State.popped (rest : List Event) (s : State) : State := { s with pending := rest }

/-- The bus port gives a response. -/
def State.respond (r : Response) (s : State) : State := { s with responses := r :: s.responses }

/-- Check 1 of R90: a command is rejected with BUSY unless SEQ is IDLE. -/
def whenIdle (s : State) (go : State) : State := if s.core.busy then s.reject .busy else go

end Sys2Proof.Machine
end

