-- ==== Sys2Proof/Machine/Operands.lean ====
section
/-! DEFINITION. The operands of the commands, all implicit (R62, R99): blocks of DBUF (R82), the four lanes
(R83, R84), the key words in KEYBUF (R92), and which lanes a command runs on (R86). -/

namespace Sys2Proof.Machine

/-- `LoadBlock(b)` of R82. -/
def loadBlock (m : Memory) (b : BitVec 2) : Word × Word :=
  (m.readBE (8 * b.toNat), m.readBE (8 * b.toNat + 4))

/-- `StoreBlock(b, (x, y))` of R82. -/
def storeBlock (m : Memory) (b : BitVec 2) (p : Word × Word) : Memory :=
  (m.writeBE (8 * b.toNat) p.1).writeBE (8 * b.toNat + 4) p.2

/-- `Deinterleave()` of R83: lane i holds block i. -/
def deinterleave (m : Memory) : Words4 × Words4 :=
  (.ofLanes fun i => m.readBE (8 * i.toNat), .ofLanes fun i => m.readBE (8 * i.toNat + 4))

/-- `Interleave()` of R84: each lane goes back to its own block. -/
def interleave (m : Memory) (l : Words4 × Words4) : Memory :=
  storeBlock (storeBlock (storeBlock (storeBlock m 0 (l.1.get 0, l.2.get 0)) 1 (l.1.get 1, l.2.get 1))
    2 (l.1.get 2, l.2.get 2)) 3 (l.1.get 3, l.2.get 3)

/-- The key words `K[j] <- KeyRead(4j, 4)` (R45, R92). -/
def keyWords (keybuf : Memory) : Words4 := .ofLanes fun j => keybuf.readBE (4 * j.toNat)

/-- Does the command in flight run on lane `i`? ENC4 and DEC4 on every lane, ENC1 and DEC1 on the lane of
their block (R86). Log 7. -/
def laneActive (op : TransformOp) (sel i : BitVec 2) : Bool :=
  match op with
  | .enc1 => i == sel
  | .dec1 => i == sel
  | .enc4 => true
  | .dec4 => true

/-- `new` on the active lanes, `old` on the others. -/
def activeLanes (op : TransformOp) (sel : BitVec 2) (new old : Words4) : Words4 :=
  .ofLanes fun i => if laneActive op sel i then new.get i else old.get i

/-- Is the operation an encryption? -/
def TransformOp.encrypts : TransformOp → Bool
  | .enc1 => true
  | .dec1 => false
  | .enc4 => true
  | .dec4 => false

/-- What SUM starts from (R86): 0 to encrypt, the decryption seed to decrypt. -/
def startSum (op : TransformOp) (v : Variant) : Word := if op.encrypts then 0 else decSeed v

/-- One round step of the operation on the lanes (R86). -/
def laneRound (op : TransformOp) (k : Words4) (l : LaneState) : LaneState :=
  if op.encrypts then vencRound k l else vdecRound k l

end Sys2Proof.Machine
end

