-- ==== Sys2Proof/Machine/KeyLoad.lean ====
section
/-! DEFINITION. The key-load family: LDKEY (41_commands.md R90, R92). -/

namespace Sys2Proof.Machine

/-- `DoLdKey(var)` of R92: a new cipher instance replaces K and VARIANT as a whole, the staging is cleared. -/
def TeaCore.loadKey (v : Variant) (c : TeaCore) : TeaCore :=
  { c with
    k := keyWords c.keybuf
    variant := v
    keyValid := true
    keybuf := Memory.zero
    keyinWr := 0
    done := true }

/-- LDKEY with the checks of R90: BUSY, then ILLEGAL for the reserved variant code (R64; log 11), then KEY_LEN unless
KEYIN_WR = 1111. It completes in the step that accepts it. -/
def execLdkey (var : BitVec 2) (s : State) : Host.Outcome State Fault Refusal :=
  .next <| whenIdle s <|
    match Variant.ofCode? var with
    | none => s.reject .illegal
    | some v => if s.core.keyinWr = 15#4 then { s with core := s.core.loadKey v } else s.reject .keyLen

end Sys2Proof.Machine
end

