-- ==== Sys2Proof/Machine/Sequencer.lean ====
section
/-! DEFINITION. The core sequencer: acceptance (R91), the round steps of the reference sequencer (R86), completion
(R97) and what each transform writes to DBUF there (R93 to R96). -/

namespace Sys2Proof.Machine

/-- `Accept(c)` of R91, and the start of the reference sequencer (R86): the lanes of the command are loaded. -/
def TeaCore.accept (op : TransformOp) (sel : BitVec 2) (c : TeaCore) : TeaCore :=
  { c with
    seq := .busy op sel
    done := false
    x := activeLanes op sel (deinterleave c.dbuf).1 c.x
    y := activeLanes op sel (deinterleave c.dbuf).2 c.y
    sum := startSum op c.variant
    rcnt := 0 }

/-- What ENC1 leaves in DBUF at completion (R93). -/
def resultEnc1 (sel : BitVec 2) (c : TeaCore) : Memory :=
  let p := loadBlock c.dbuf sel
  storeBlock c.dbuf sel (teaEnc p.1 p.2 c.k c.variant)

/-- What DEC1 leaves in DBUF at completion (R94). -/
def resultDec1 (sel : BitVec 2) (c : TeaCore) : Memory :=
  let p := loadBlock c.dbuf sel
  storeBlock c.dbuf sel (teaDec p.1 p.2 c.k c.variant)

/-- What ENC4 leaves in DBUF at completion, on the lane-parallel path (R95). -/
def resultEnc4 (c : TeaCore) : Memory :=
  let l := deinterleave c.dbuf
  interleave c.dbuf (vTeaEnc l.1 l.2 c.k c.variant)

/-- What DEC4 leaves in DBUF at completion, on the lane-parallel path (R96). -/
def resultDec4 (c : TeaCore) : Memory :=
  let l := deinterleave c.dbuf
  interleave c.dbuf (vTeaDec l.1 l.2 c.k c.variant)

/-- What the operation in flight leaves in DBUF at completion (R97). -/
def transformResult (op : TransformOp) (sel : BitVec 2) (c : TeaCore) : Memory :=
  match op with
  | .enc1 => resultEnc1 sel c
  | .dec1 => resultDec1 sel c
  | .enc4 => resultEnc4 c
  | .dec4 => resultDec4 c

/-- Four free words of draw `n`, the `base`-th and up. -/
def freeWords4 (n base : Nat) : Words4 :=
  ⟨Config.freeWord n base, Config.freeWord n (base + 1), Config.freeWord n (base + 2), Config.freeWord n (base + 3)⟩

/-- A free value of RCNT, in 0..64 (R20). -/
def freeRoundCount (n : Nat) : BitVec 7 := BitVec.ofNat 7 (Config.freeCount n % 65)

/-- The block of R97: DBUF takes the results of `op`, SEQ <- IDLE, DONE <- 1. No command is in flight afterwards,
so the lane registers hold unspecified values (R27): the free values of draw `n` (log 6). -/
def TeaCore.finish (n : Nat) (op : TransformOp) (sel : BitVec 2) (c : TeaCore) : TeaCore :=
  { c with
    dbuf := transformResult op sel c
    seq := .idle
    done := true
    x := freeWords4 n 0
    y := freeWords4 n 4
    sum := Config.freeWord n 8
    rcnt := freeRoundCount n }

/-- A round step of the reference sequencer (R86), on the lanes of the command in flight. -/
def TeaCore.roundStep (op : TransformOp) (sel : BitVec 2) (c : TeaCore) : TeaCore :=
  let l := laneRound op c.k ⟨c.sum, c.x, c.y⟩
  { c with
    x := activeLanes op sel l.x c.x
    y := activeLanes op sel l.y c.y
    sum := l.sum
    rcnt := c.rcnt + 1 }

/-- `Complete()` of R97: enabled exactly when SEQ is BUSY; where it is not enabled nothing happens. -/
def State.complete (s : State) : State :=
  match s.core.seq with
  | .idle => s
  | .busy op sel => { s with core := s.core.finish s.draws op sel, draws := s.draws + 1 }

/-- One step of the reference sequencer (R86): a round step, or completion when RCNT has reached ROUNDS(VARIANT).
Where no command is in flight nothing happens. -/
def State.tick (s : State) : State :=
  match s.core.seq with
  | .idle => s
  | .busy op sel =>
    if s.core.rcnt.toNat < s.core.variant.rounds then { s with core := s.core.roundStep op sel } else s.complete

end Sys2Proof.Machine
end

