-- ==== Sys2Proof/Machine/Transform.lean ====
section
/-! DEFINITION. The transform family: ENC1, DEC1, ENC4, DEC4 (41_commands.md R90, R91, R93 to R96). Their meaning at
the CMD write is acceptance; their results appear at completion (`State.complete`, R97). -/

namespace Sys2Proof.Machine

/-- A transform command with the checks of R90: BUSY, then NO_KEY while no key is loaded, then acceptance. -/
def acceptTransform (op : TransformOp) (sel : BitVec 2) (s : State) : State :=
  whenIdle s (if s.core.keyValid then { s with core := s.core.accept op sel } else s.reject .noKey)

/-- ENC1 b (R93). -/
def execEnc1 (sel : BitVec 2) (s : State) : Host.Outcome State Fault Refusal := .next (acceptTransform .enc1 sel s)

/-- DEC1 b (R94). -/
def execDec1 (sel : BitVec 2) (s : State) : Host.Outcome State Fault Refusal := .next (acceptTransform .dec1 sel s)

/-- ENC4 (R95); sel = 0 (R91). -/
def execEnc4 (s : State) : Host.Outcome State Fault Refusal := .next (acceptTransform .enc4 0 s)

/-- DEC4 (R96); sel = 0 (R91). -/
def execDec4 (s : State) : Host.Outcome State Fault Refusal := .next (acceptTransform .dec4 0 s)

end Sys2Proof.Machine
end

