-- ==== Sys2Proof/Machine/Dispatch.lean ====
section
/-! DEFINITION. One arm per command: its meaning. -/

namespace Sys2Proof.Machine

/-- The meaning of a decoded command word written to CMD (R90). -/
def exec (i : Instr) (s : State) : Host.Outcome State Fault Refusal :=
  match i with
  | .ldkey var => Sys2Proof.Machine.execLdkey var s
  | .enc1 sel => Sys2Proof.Machine.execEnc1 sel s
  | .dec1 sel => Sys2Proof.Machine.execDec1 sel s
  | .enc4 => Sys2Proof.Machine.execEnc4 s
  | .dec4 => Sys2Proof.Machine.execDec4 s

end Sys2Proof.Machine
end

