-- ==== Sys2Proof/Machine/Bus.lean ====
section
/-! DEFINITION. The bus target port: the register map (10_state.md R29 to R36), transactions and bus errors
(20_memory.md R40 to R44), the handling of a CMD write (R90), the platform's address decode (R41) and the reset
input (R140). -/

namespace Sys2Proof.Machine

/-- The registers of the window (R29). -/
inductive Reg where
  | cmd
  | status
  | ctrl
  | reserved
  | keyIn (i : BitVec 2)
  | data (j : BitVec 3)
deriving DecidableEq, Repr

/-- The register an offset selects, by `off[5:2]` (R29, R41). -/
def Reg.select (off : BitVec 6) : Reg :=
  match (off.extractLsb' 2 4).toNat with
  | 0 => .cmd
  | 1 => .status
  | 2 => .ctrl
  | 3 => .reserved
  | n => if n < 8 then .keyIn (BitVec.ofNat 2 (n - 4)) else .data (BitVec.ofNat 3 (n - 8))

/-- The byte offset of a register (R29). -/
def Reg.offset : Reg → BitVec 6
  | .cmd => 0x00
  | .status => 0x04
  | .ctrl => 0x08
  | .reserved => 0x0C
  | .keyIn i => BitVec.ofNat 6 (0x10 + 4 * i.toNat)
  | .data j => BitVec.ofNat 6 (0x20 + 4 * j.toNat)

/-- What an aligned 32-bit read of a register returns (R30 to R36). It changes nothing (R48). -/
def Reg.read (r : Reg) (c : TeaCore) : Word :=
  match r with
  | .cmd => 0
  | .status => c.statusWord
  | .ctrl => c.ctrlWord
  | .reserved => 0
  | .keyIn _ => 0
  | .data j => c.dbuf.readLanes (4 * j.toNat)

/-- `HandleCmd(W)` of R90: check 1, then check 2, then the command's own checks and effect. -/
def handleCmd (w : Word) (s : State) : Host.Outcome State Fault Refusal :=
  if s.core.busy then .next (s.reject .busy)
  else match decode w with
    | .illegal _ => .next (s.reject .illegal)
    | .command i => exec i s

/-- An aligned 32-bit write of a register (R30 to R36). -/
def Reg.write (r : Reg) (w : Word) (s : State) : Host.Outcome State Fault Refusal :=
  match r with
  | .cmd => handleCmd w s
  | .status => .next { s with core := s.core.writeStatus w }
  | .ctrl => .next { s with core := s.core.writeCtrl w }
  | .reserved => .next s
  | .keyIn i => .next { s with core := s.core.writeKeyIn i w }
  | .data j => .next { s with core := s.core.writeData j w }

/-- The offset of a transaction. -/
def Transaction.off : Transaction → BitVec 6
  | .read off _ => off
  | .write off _ _ => off

/-- The width of a transaction. -/
def Transaction.size : Transaction → AccessSize
  | .read _ size => size
  | .write _ size _ => size

/-- Is the transaction a bus error: not 32 bits wide, or not aligned (R42)? -/
def Transaction.isError (t : Transaction) : Bool :=
  t.size != .word || t.off.extractLsb' 0 2 != 0

/-- What the port answers (R40, R42): err = 1 and rdata = 0 for a bus error; a rejection is no bus error (R120). -/
def Transaction.response (t : Transaction) (c : TeaCore) : Response :=
  match t with
  | .read off _ => if t.isError then .read 0 true else .read ((Reg.select off).read c) false
  | .write _ _ _ => .write t.isError

/-- One transaction, handled as one indivisible step (R40, R47). -/
def busTransaction (t : Transaction) (s : State) : Host.Outcome State Fault Refusal :=
  let answered := s.respond (t.response s.core)
  match t with
  | .read _ _ => .next answered
  | .write off _ w => if t.isError then .next answered else (Reg.select off).write w answered

/-- A transaction issued while rst is asserted (R140): the core takes none and stays as it is; the response is the
BUS_BINDING's held-in-reset target's, free values of the model. Log 9. -/
def heldInResetResponse (t : Transaction) (draw : Nat) : Response :=
  match t with
  | .read _ _ => .read (Config.busBinding.heldInResetData draw) (Config.busBinding.heldInResetErr draw)
  | .write _ _ _ => .write (Config.busBinding.heldInResetErr draw)

/-- What the port does with a transaction while rst is asserted (R140). Log 9. -/
def busInReset (t : Transaction) (s : State) : State :=
  { s.respond (heldInResetResponse t s.draws) with draws := s.draws + 1 }

/-- The reset input changes (R140): asserting it sets the values of R38 and abandons a command in flight. -/
def State.setRst (asserted : Bool) (s : State) : State :=
  { s with rst := asserted, core := if asserted then TeaCore.reset else s.core }

/-- One event at the core. While rst is asserted the core keeps its reset values: it takes no transaction (R140) and
no sequencer step is enabled. Log 10. -/
def handleEvent (e : Event) (s : State) : Host.Outcome State Fault Refusal :=
  match e with
  | .bus t => if s.rst then .next (busInReset t s) else busTransaction t s
  | .tick => .next (if s.rst then s else s.tick)
  | .complete => .next (if s.rst then s else s.complete)
  | .rst asserted => .next (s.setRst asserted)

/-- What happens when nothing is pending: a command in flight completes, since a BUSY core eventually does unless reset
intervenes (R97); otherwise the core waits (R141). Log 2, log 3. -/
def quietStep (s : State) : State := if s.rst then s else s.complete

/-- The byte offset of a bus address, where the platform decodes the address to the window (R40, R41). Log 14. -/
def windowOffset (base addr : Nat) : Option (BitVec 6) :=
  if base ≤ addr ∧ addr < base + 64 then some (BitVec.ofNat 6 (addr - base)) else none

/-- One transfer of the bus protocol `b` at the port: signals that stand for a transaction bring it to the core, after
those already under way; other signals bring nothing (R7, R40). Log 22. -/
def State.transfer (b : BusBinding) (signals : Signals) (s : State) : State :=
  match b.accept signals with
  | none => s
  | some t => { s with pending := s.pending ++ [.bus t] }

/-- The signals by which the port has answered, newest first, under the bus protocol `b` (R7, R40). Log 22. -/
def State.answers (b : BusBinding) (s : State) : List Signals := s.responses.map b.answer

/-- A bus master reads at a bus address: the access reaches the core only inside the window (R41), and as the
BUS_BINDING's signals. -/
def State.hostRead (addr : Nat) (size : AccessSize) (s : State) : State :=
  match windowOffset Config.base addr with
  | none => s
  | some off => s.transfer Config.busBinding (Config.busBinding.request (.read off size))

/-- A bus master writes at a bus address: the access reaches the core only inside the window (R41), and as the
BUS_BINDING's signals. -/
def State.hostWrite (addr : Nat) (size : AccessSize) (w : Word) (s : State) : State :=
  match windowOffset Config.base addr with
  | none => s
  | some off => s.transfer Config.busBinding (Config.busBinding.request (.write off size w))

/-- The event of a level on the `rst` pin, under the polarity of RESET_STYLE (R7, R140). Log 10. -/
def rstPin (level : Bool) : Event := .rst (level == Config.resetActiveHigh)

/-- The write of a command word to CMD (R30): how a command reaches the core. -/
def cmdWrite (w : Word) : Event := .bus (.write Reg.cmd.offset .word w)

end Sys2Proof.Machine
end

