-- ==== Sys2Proof/Machine/Step.lean ====
section
/-! DEFINITION. One step of the machine: the next pending event, or the quiet step. -/

namespace Sys2Proof.Machine

/-- The steps form one total order, and the state is the result of applying them in it (R51). -/
def step (s : State) : Host.Outcome State Fault Refusal :=
  match s.pending with
  | [] => .next (quietStep s)
  | e :: rest => handleEvent e (s.popped rest)

/-- `s` with the write of the command word to CMD as the very next event, and rst released, so that the next step
handles it. The core has no fetch (R5, R54): a command is what a host writes. Log 4. -/
def State.withFetchWord (s : State) (nbits w : Nat) : State :=
  { s with rst := false, pending := cmdWrite (tableWord nbits w) :: s.pending }

end Sys2Proof.Machine
end

