-- ==== Sys2Proof/Machine/Assembler.lean ====
section
/-! DEFINITION. The spec's own command syntax (30_encoding.md R66): a printer and a parser on lists of characters.
It is notation for hosts and has no hardware behaviour (D34). Log 19. -/

namespace Sys2Proof.Machine

/-- The name of a variant in an LDKEY operand (R66). -/
def Variant.text : Variant → List Char
  | .tea16 => ['T', 'E', 'A', '1', '6']
  | .tea32 => ['T', 'E', 'A', '3', '2']
  | .tea64 => ['T', 'E', 'A', '6', '4']

/-- The digit of a block index. -/
def blockDigit (b : BitVec 2) : Char :=
  match b.toNat with
  | 0 => '0'
  | 1 => '1'
  | 2 => '2'
  | _ => '3'

/-- The printer of R66, in upper case; the reserved variant code has no text. -/
def printInstr? : Instr → Option (List Char)
  | .ldkey var => (Variant.ofCode? var).map fun v => ['L', 'D', 'K', 'E', 'Y', ' '] ++ v.text
  | .enc1 sel => some (['E', 'N', 'C', '1', ' ', 'B'] ++ [blockDigit sel])
  | .dec1 sel => some (['D', 'E', 'C', '1', ' ', 'B'] ++ [blockDigit sel])
  | .enc4 => some ['E', 'N', 'C', '4']
  | .dec4 => some ['D', 'E', 'C', '4']

/-- The words of a text, split at blanks; `word` holds the word being read, last character first. -/
def splitWords (word : List Char) (text : List Char) : List (List Char) :=
  match text with
  | [] => if word.isEmpty then [] else [word.reverse]
  | c :: rest =>
    if c = ' ' then (if word.isEmpty then splitWords [] rest else word.reverse :: splitWords [] rest)
    else splitWords (c :: word) rest

/-- The block index a digit names. -/
def digitBlock? (c : Char) : Option (BitVec 2) :=
  if c = '0' then some 0
  else if c = '1' then some 1
  else if c = '2' then some 2
  else if c = '3' then some 3
  else none

/-- A block operand in upper case: `B<n>` or the bare number n (R66). -/
def parseBlock? (text : List Char) : Option (BitVec 2) :=
  match text with
  | [c] => digitBlock? c
  | [b, c] => if b = 'B' then digitBlock? c else none
  | _ => none

/-- A variant operand in upper case (R66). -/
def parseVariant? (text : List Char) : Option (BitVec 2) :=
  if text = Variant.tea16.text then some Variant.tea16.code
  else if text = Variant.tea32.text then some Variant.tea32.code
  else if text = Variant.tea64.text then some Variant.tea64.code
  else none

/-- The parser of R66: mnemonics and operands are case-insensitive. -/
def parse? (text : List Char) : Option Instr :=
  match splitWords [] (text.map Char.toUpper) with
  | [mnemonic] =>
    if mnemonic = ['E', 'N', 'C', '4'] then some .enc4
    else if mnemonic = ['D', 'E', 'C', '4'] then some .dec4
    else none
  | [mnemonic, operand] =>
    if mnemonic = ['L', 'D', 'K', 'E', 'Y'] then (parseVariant? operand).map .ldkey
    else if mnemonic = ['E', 'N', 'C', '1'] then (parseBlock? operand).map .enc1
    else if mnemonic = ['D', 'E', 'C', '1'] then (parseBlock? operand).map .dec1
    else none
  | _ => none

end Sys2Proof.Machine
end

