-- ==== Sys2Proof/Machine/HostProgram.lean ====
section
/-! DEFINITION. The host-program notation of 30_encoding.md R67 as lists of pending events. -/

namespace Sys2Proof.Machine

/-- `WR <reg>, <value32>` (R67). -/
def hostWR (r : Reg) (w : Word) : Event := .bus (.write r.offset .word w)

/-- `RD <reg>` (R67). -/
def hostRD (r : Reg) : Event := .bus (.read r.offset .word)

/-- `CMD <command>` (R67). -/
def hostCMD (i : Instr) : Event := hostWR .cmd (encode i)

/-- `SETKEY k0..k15` (R67), the key bytes in the source's order. -/
def hostSETKEY (key : Nat → Byte) : List Event :=
  [0#2, 1#2, 2#2, 3#2].map fun i =>
    hostWR (.keyIn i) (lanesToWord (key (4 * i.toNat)) (key (4 * i.toNat + 1)) (key (4 * i.toNat + 2)) (key (4 * i.toNat + 3)))

/-- DATA<2b>, the register of block `b`'s word x (R29). -/
def blockX (b : BitVec 2) : Reg := .data (b ++ 0#1)

/-- DATA<2b+1>, the register of block `b`'s word y (R29). -/
def blockY (b : BitVec 2) : Reg := .data (b ++ 1#1)

/-- `PUTBLK b, p0..p7` (R67). -/
def hostPUTBLK (b : BitVec 2) (p : Nat → Byte) : List Event :=
  [hostWR (blockX b) (lanesToWord (p 0) (p 1) (p 2) (p 3)), hostWR (blockY b) (lanesToWord (p 4) (p 5) (p 6) (p 7))]

/-- The reads of `GETBLK b` (R67). -/
def hostGETBLK (b : BitVec 2) : List Event := [hostRD (blockX b), hostRD (blockY b)]

/-- The bytes q0..q7 that `GETBLK` makes of the two words it reads (R67). -/
def blockBytes (w0 w1 : Word) : List Byte :=
  [lane w0 0, lane w0 1, lane w0 2, lane w0 3, lane w1 0, lane w1 1, lane w1 2, lane w1 3]

/-- `WAIT` (R67): `n` polls of STATUS before the completion, which may come at any time (R97), and one after it. Log 20. -/
def hostWAIT (n : Nat) : List Event := List.replicate n (hostRD .status) ++ [.complete, hostRD .status]

/-- `CLRST` (R67). -/
def hostCLRST : Event := hostWR .status 0x00000006

end Sys2Proof.Machine
end

