-- ==== Sys2Proof/Safety.lean ====
section
/-! DEFINITION. The terms the claims use: the reset values (R38), the invariants of every reachable state (R39 and its
like), what the host can observe (R20), and when a run has come to rest (R149). -/

namespace Sys2Proof.Machine

/-- The rows of R38 that give a value, and `irq` (R38). The lane registers have no row here. -/
structure TeaCore.HoldsResetValues (c : TeaCore) : Prop where
  keyZero : ∀ j, c.k.get j = 0
  keyInvalid : c.keyValid = false
  variantZero : c.variant.code = 0
  keybufZero : ∀ n, c.keybuf.read n = 0
  nothingStaged : c.keyinWr = 0
  dbufZero : ∀ a, c.dbuf.read a = 0
  seqIdle : c.seq = .idle
  doneClear : c.done = false
  errClear : c.err = false
  errcodeNone : c.errcode = 0
  ieDoneClear : c.ieDone = false
  ieErrClear : c.ieErr = false
  irqLow : c.irq = false

/-- The word pair of one block after `n` rounds of the operation (R78, R79). -/
def pairRounds (op : TransformOp) (k : Words4) (n : Nat) (p : PairState) : PairState :=
  if op.encrypts then encRounds k n p else decRounds k n p

/-- The rounds' start on block `i` of DBUF: SUM, x and y (R78, R79, R86). -/
def pairStart (op : TransformOp) (c : TeaCore) (i : BitVec 2) : PairState :=
  ⟨startSum op c.variant, (loadBlock c.dbuf i).1, (loadBlock c.dbuf i).2⟩

/-- While a command is in flight, at most ROUNDS(VARIANT) rounds are done, and its lanes hold what that many rounds of
TeaEnc or TeaDec make of their blocks (R86). -/
def TeaCore.LanesFollowRounds (c : TeaCore) : Prop :=
  ∀ op sel, c.seq = .busy op sel →
    c.rcnt.toNat ≤ c.variant.rounds ∧
    ∀ i, laneActive op sel i = true →
      pairRounds op c.k c.rcnt.toNat (pairStart op c i) = ⟨c.sum, c.x.get i, c.y.get i⟩

/-- The invariant of the core's own state. -/
structure TeaCore.Inv (c : TeaCore) : Prop where
  /-- DBUF is in canonical form. -/
  dbufWf : c.dbuf.wf dbufBytes = true
  /-- KEYBUF is in canonical form. -/
  keybufWf : c.keybuf.wf keybufBytes = true
  /-- R39: KEY_VALID = 0 implies K = 0. -/
  noKeyIsZero : c.keyValid = false → c.k = Words4.zero
  /-- A transform is accepted only with a key (R90). -/
  busyHasKey : c.busy = true → c.keyValid = true
  /-- Acceptance clears DONE and only completion sets it while BUSY (R91, R97). -/
  busyNotDone : c.busy = true → c.done = false
  /-- sel = 0 for ENC4 and DEC4 (R91). -/
  fourBlockSelZero : ∀ op sel, c.seq = .busy op sel → op = .enc4 ∨ op = .dec4 → sel = 0
  /-- ERRCODE values 5..15 are never produced (R120). -/
  errcodeAtMostFour : c.errcode.toNat ≤ 4
  /-- ERRCODE is NONE exactly while ERR is 0 (R31, R120). -/
  errIffCode : c.err = true ↔ c.errcode ≠ 0
  /-- Staging bytes not written since reset or the last LDKEY are zero (R25). -/
  unstagedZero : ∀ i : BitVec 2, c.keyinWr.getLsbD i.toNat = false → c.keybuf.readLanes (4 * i.toNat) = 0
  /-- RCNT is in 0..64 (R20). -/
  rcntInRange : c.rcnt.toNat ≤ 64
  /-- The lane registers of a command in flight (R86). -/
  lanes : c.LanesFollowRounds

/-- The invariant of the machine: the core's, and reset values while rst is asserted (R38, R140). -/
structure State.Inv (s : State) : Prop where
  core : s.core.Inv
  heldInReset : s.rst = true → s.core = TeaCore.reset

/-- What the host can observe is the same: the fields R20 marks host-visible, CTRL among them, and BUSY. -/
structure TeaCore.SameView (c d : TeaCore) : Prop where
  keyValid : c.keyValid = d.keyValid
  variant : c.variant = d.variant
  keyinWr : c.keyinWr = d.keyinWr
  dbuf : ∀ a, a < dbufBytes → c.dbuf.read a = d.dbuf.read a
  busy : c.busy = d.busy
  done : c.done = d.done
  err : c.err = d.err
  errcode : c.errcode = d.errcode
  ieDone : c.ieDone = d.ieDone
  ieErr : c.ieErr = d.ieErr

/-- A run has ended and the core is at rest (R149). -/
def State.Quiescent (s : State) : Prop := s.pending = [] ∧ s.core.seq = .idle

/-- `n` steps of the reference sequencer, with nothing between them (R86). -/
def ticks (n : Nat) (s : State) : State := State.tick^[n] s

end Sys2Proof.Machine
end

