-- ==== Sys2Proof/Certificates/Slice0/Obligations.lean ====
section
/-! DEFINITION. The statements for the provers. Each docstring names the rule of spec/ it formalises; where a clause
is the model's own choice it names the log entry. -/

open Sys2Proof Sys2Proof.Machine

namespace Sys2Proof.Machine

/-! Words the statements share. -/

/-- The state after a CMD or DATA write that was rejected with `code` (R12): the write is answered without a bus error
(R120) and the core differs in ERR and ERRCODE only. -/
def afterRejection (s : State) (rest : List Event) (code : BitVec 4) : State :=
  { s with
    pending := rest
    responses := .write false :: s.responses
    core := { s.core with err := true, errcode := code } }

/-- The state after a write that was answered without a bus error and left the core as `c`. -/
def afterWrite (s : State) (rest : List Event) (c : TeaCore) : State :=
  { s with pending := rest, responses := .write false :: s.responses, core := c }

/-- The state after a read that returned `d` without a bus error. -/
def afterRead (s : State) (rest : List Event) (d : Word) : State :=
  { s with pending := rest, responses := .read d false :: s.responses }

/-- Is `i` one of the four transform commands? -/
def isTransform (i : Instr) : Prop := ∀ var, i ≠ .ldkey var

/-- `t` is `s` with the transform `op` on block `sel` accepted (R91) and the reference sequencer started (R86). -/
def AcceptedAs (op : TransformOp) (sel : BitVec 2) (s t : State) : Prop :=
  t = { s with core := { s.core with
    seq := .busy op sel
    done := false
    x := t.core.x
    y := t.core.y
    sum := if op.encrypts then 0 else DELTA <<< s.core.variant.shift
    rcnt := 0 } } ∧
  ∀ i : BitVec 2,
    ((op = .enc4 ∨ op = .dec4 ∨ i = sel) → (t.core.x.get i, t.core.y.get i) = loadBlock s.core.dbuf i) ∧
    (¬(op = .enc4 ∨ op = .dec4 ∨ i = sel) → t.core.x.get i = s.core.x.get i ∧ t.core.y.get i = s.core.y.get i)

/-- What the operation makes of one word pair (R78, R79). -/
def transformPair (op : TransformOp) (k : Words4) (v : Variant) (p : Word × Word) : Word × Word :=
  if op.encrypts then teaEnc p.1 p.2 k v else teaDec p.1 p.2 k v

/-- `t` is `s` with the command `op` on block `sel` completed and `rest` still to happen (R97): SEQ, DONE and the bytes
of the command's blocks, the lane registers left open (R27), and nothing else. -/
def CompletedAs (op : TransformOp) (sel : BitVec 2) (rest : List Event) (s t : State) : Prop :=
  t = { s with
    pending := rest
    draws := t.draws
    core := { s.core with
      dbuf := t.core.dbuf
      seq := .idle
      done := true
      x := t.core.x
      y := t.core.y
      sum := t.core.sum
      rcnt := t.core.rcnt } } ∧
  (∀ b : BitVec 2, (op = .enc4 ∨ op = .dec4 ∨ b = sel) →
    loadBlock t.core.dbuf b = transformPair op s.core.k s.core.variant (loadBlock s.core.dbuf b)) ∧
  ∀ a : Nat, (op = .enc1 ∨ op = .dec1) ∧ (a < 8 * sel.toNat ∨ 8 * sel.toNat + 8 ≤ a) ∨ 32 ≤ a →
    t.core.dbuf.read a = s.core.dbuf.read a

/-- The next event is the CMD write of an LDKEY word that passes the checks of R90. -/
def AcceptsLdkey (s : State) : Prop :=
  s.rst = false ∧ s.core.busy = false ∧ s.core.keyinWr = 15#4 ∧
  ∃ w var rest, s.pending = cmdWrite w :: rest ∧ decode w = .command (.ldkey var)

/-- The next event is a write that is rejected: a CMD write that fails a check of R90, or a DATA write while BUSY (R36). -/
def FailsACheck (s : State) : Prop :=
  s.rst = false ∧
  ((∃ w rest, s.pending = cmdWrite w :: rest ∧
    (s.core.busy = true ∨ (∃ why, decode w = .illegal why) ∨
      ((∃ var, decode w = .command (.ldkey var)) ∧ s.core.keyinWr ≠ 15#4) ∨
      ((∃ i, isTransform i ∧ decode w = .command i) ∧ s.core.keyValid = false))) ∨
  (s.core.busy = true ∧ ∃ j w rest, s.pending = hostWR (.data j) w :: rest))

/-- KEY_IN writes, one after the other (R34): the register's number and the word. -/
def stageKey (writes : List (BitVec 2 × Word)) (c : TeaCore) : TeaCore :=
  writes.foldl (fun c p => c.writeKeyIn p.1 p.2) c

/-- The next event is the assertion of rst. -/
def EntersReset (s : State) : Prop := ∃ rest, s.pending = .rst true :: rest

/-- The states that some sequence of events leads to from reset. -/
inductive Reachable : State → Prop where
  | reset (events : List Event) : Reachable { State.reset with pending := events }
  | step {s t : State} (h : Reachable s) (hs : step s = .next t) : Reachable t

end Sys2Proof.Machine

/-! Command words. -/

/-- Some words of 95_test_vectors.md section 2.7 decode to the commands they stand for. -/
def Obligations.DecodesWordsOfTheCommandTable : Prop :=
  decode 0x00000011 = .command (.ldkey 1) ∧ decode 0x00000302 = .command (.enc1 3) ∧
  decode 0x00000203 = .command (.dec1 2) ∧ decode 0x00000004 = .command .enc4 ∧
  decode 0x00000005 = .command .dec4 ∧ decode 0x00000031 = .illegal .reservedVariant

/-- R63: the 13 legal words, what each stands for, and that no other word is a command. -/
def Obligations.ThirteenLegalCommandWords : Prop :=
  (∀ w : Word, (∃ i, decode w = .command i) ↔
    w ∈ ([0x001, 0x011, 0x021, 0x002, 0x102, 0x202, 0x302, 0x003, 0x103, 0x203, 0x303, 0x004, 0x005] : List Word)) ∧
  decode 0x001 = .command (.ldkey Variant.tea16.code) ∧ decode 0x011 = .command (.ldkey Variant.tea32.code) ∧
  decode 0x021 = .command (.ldkey Variant.tea64.code) ∧
  (∀ sel : BitVec 2, decode (BitVec.ofNat 32 (2 + 256 * sel.toNat)) = .command (.enc1 sel) ∧
    decode (BitVec.ofNat 32 (3 + 256 * sel.toNat)) = .command (.dec1 sel)) ∧
  decode 0x004 = .command .enc4 ∧ decode 0x005 = .command .dec4

/-- The encoder and the decoder agree on every well-formed command: as a word, as bytes on the bus lanes with any bytes
after them, and as a word of the opcode table (R61, R63, R65). The byte form is log 15. -/
def Obligations.DecodingAnEncodedCommandGivesItBack : Prop :=
  ∀ (i : Instr) (rest : List Byte), i.wellFormed = true →
    decode (encode i) = .command i ∧ decodeBytes (encodeBytes i ++ rest) = (.command i, rest) ∧
    decodeTableWord 32 (encode i).toNat = some i

/-- Each legal word has one meaning, and the encoder gives the word back (R63, R65). -/
def Obligations.EncodingADecodedWordGivesItBack : Prop :=
  ∀ (w : Word) (i : Instr), decode w = .command i → i.wellFormed = true ∧ encode i = w

/-- R64: which words are illegal, and that such a word is rejected with ILLEGAL while IDLE and with BUSY while BUSY, with
no other effect. -/
def Obligations.IllegalWordsAreRejected : Prop :=
  (∀ w : Word, (∃ why, decode w = .illegal why) ↔
    (w.extractLsb' 10 22 ≠ 0 ∨ w.extractLsb' 6 2 ≠ 0 ∨
      (w.extractLsb' 0 4 = 0 ∨ 6 ≤ (w.extractLsb' 0 4).toNat) ∨
      (w.extractLsb' 0 4 = 1 ∧ w.extractLsb' 4 2 = 3) ∨
      (w.extractLsb' 0 4 = 1 ∧ w.extractLsb' 8 2 ≠ 0) ∨
      ((w.extractLsb' 0 4 = 2 ∨ w.extractLsb' 0 4 = 3) ∧ w.extractLsb' 4 2 ≠ 0) ∨
      ((w.extractLsb' 0 4 = 4 ∨ w.extractLsb' 0 4 = 5) ∧ (w.extractLsb' 4 2 ≠ 0 ∨ w.extractLsb' 8 2 ≠ 0)))) ∧
  ∀ (s : State) (w : Word) (rest : List Event), s.rst = false → s.pending = cmdWrite w :: rest →
    (∃ why, decode w = .illegal why) →
    (s.core.busy = false → step s = .next (afterRejection s rest 1)) ∧
    (s.core.busy = true → step s = .next (afterRejection s rest 4))

/-- R66: what the printer prints of a command is in upper case, and the parser reads it back, in lower case too.
That the text splits at blanks is the model's reading (log 19). -/
def Obligations.PrintedCommandsParseBack : Prop :=
  ∀ i : Instr, i.wellFormed = true → ∃ text, printInstr? i = some text ∧ text.map Char.toUpper = text ∧
    parse? text = some i ∧ parse? (text.map Char.toLower) = some i

/-! Steps and commands. -/

/-- A step whose event is the write of a legal word to CMD is the command's meaning, at the state in which the write has
been taken and answered (R90); and a word placed by `withFetchWord` is run by the very next step (log 4). -/
def Obligations.StepRunsTheDecodedCommand : Prop :=
  (∀ (s : State) (w : Word) (i : Instr) (rest : List Event), s.rst = false → s.pending = cmdWrite w :: rest →
    decode w = .command i →
    step s = exec i { s with pending := rest, responses := .write false :: s.responses }) ∧
  ∀ (s : State) (nbits w : Nat) (i : Instr), decodeTableWord nbits w = some i →
    step (s.withFetchWord nbits w) = exec i { s with rst := false, responses := .write false :: s.responses }

/-- The machine never stops: the core has no trap (R123) and its datapath raises nothing (R120). That a step answers also
where the spec enables none is the model's choice: a transaction in reset (log 9), a sequencer event with no command in
flight (log 17), nothing to do at all (log 3). -/
def Obligations.EveryStepAnswersANextState : Prop :=
  (∀ s : State, ∃ t, step s = .next t) ∧ ∀ (i : Instr) (s : State), ∃ t, exec i s = .next t

/-- R121: the order of the checks of a CMD write, a bus error before all of them; exactly one code is reported. -/
def Obligations.CommandChecksInOrder : Prop :=
  ∀ (s : State) (off : BitVec 6) (size : AccessSize) (w : Word) (rest : List Event), s.rst = false →
    s.pending = .bus (.write off size w) :: rest → off.toNat < 4 →
    (size ≠ .word ∨ off ≠ 0 →
      step s = .next { s with pending := rest, responses := .write true :: s.responses }) ∧
    (size = .word → off = 0 →
      (s.core.busy = true → step s = .next (afterRejection s rest 4)) ∧
      (s.core.busy = false → (∃ why, decode w = .illegal why) → step s = .next (afterRejection s rest 1)) ∧
      (s.core.busy = false → (∃ var, decode w = .command (.ldkey var)) → s.core.keyinWr ≠ 15#4 →
        step s = .next (afterRejection s rest 2)) ∧
      (s.core.busy = false → (∃ i, isTransform i ∧ decode w = .command i) → s.core.keyValid = false →
        step s = .next (afterRejection s rest 3)))

/-- R92, its pseudocode: with the checks passed, LDKEY answers a next state with the staged key in K big-endian, the
variant selected, the staging cleared and DONE set, and nothing else changed. -/
def Obligations.LdkeyLoadsTheStagedKey : Prop :=
  ∀ (s : State) (v : Variant), s.core.busy = false → s.core.keyinWr = 15#4 →
    ∃ t, exec (.ldkey v.code) s = .next t ∧
      t = { s with core := { s.core with
        k := t.core.k
        variant := v
        keyValid := true
        keybuf := t.core.keybuf
        keyinWr := 0
        done := true } } ∧
      (∀ j : BitVec 2, t.core.k.get j =
        s.core.keybuf.read (4 * j.toNat) ++ s.core.keybuf.read (4 * j.toNat + 1) ++
          s.core.keybuf.read (4 * j.toNat + 2) ++ s.core.keybuf.read (4 * j.toNat + 3)) ∧
      ∀ n, t.core.keybuf.read n = 0

/-- R91: with the checks passed, each transform command answers a next state in which it is in flight; its lanes are
loaded as R86 says, ENC1 and DEC1 on the lane of their block only (log 7). -/
def Obligations.TransformsAreAccepted : Prop :=
  ∀ s : State, s.core.busy = false → s.core.keyValid = true →
    (∀ sel, ∃ t, exec (.enc1 sel) s = .next t ∧ AcceptedAs .enc1 sel s t) ∧
    (∀ sel, ∃ t, exec (.dec1 sel) s = .next t ∧ AcceptedAs .dec1 sel s t) ∧
    (∃ t, exec .enc4 s = .next t ∧ AcceptedAs .enc4 0 s t) ∧
    ∃ t, exec .dec4 s = .next t ∧ AcceptedAs .dec4 0 s t

/-- The frame of LDKEY (R12, R90, R92): it stores to no byte of DBUF; accepted, it clears all of KEYBUF and leaves ERR and
ERRCODE; rejected, it leaves KEYBUF, the key and DONE. The term ldkey 3 stands for no word and is rejected (log 11). -/
def Obligations.LdkeyFrame : Prop :=
  ∀ (s t : State) (var : BitVec 2), exec (.ldkey var) s = .next t →
    t.rst = s.rst ∧ t.pending = s.pending ∧ t.responses = s.responses ∧ t.draws = s.draws ∧
    (∀ a, t.core.dbuf.read a = s.core.dbuf.read a) ∧
    t.core.seq = s.core.seq ∧ t.core.ieDone = s.core.ieDone ∧ t.core.ieErr = s.core.ieErr ∧
    t.core.x = s.core.x ∧ t.core.y = s.core.y ∧ t.core.sum = s.core.sum ∧ t.core.rcnt = s.core.rcnt ∧
    (s.core.busy = false ∧ s.core.keyinWr = 15#4 ∧ var ≠ 3 →
      t.core.err = s.core.err ∧ t.core.errcode = s.core.errcode ∧ ∀ n, t.core.keybuf.read n = 0) ∧
    (¬(s.core.busy = false ∧ s.core.keyinWr = 15#4 ∧ var ≠ 3) →
      t.core.k = s.core.k ∧ t.core.variant = s.core.variant ∧ t.core.keyValid = s.core.keyValid ∧
      t.core.keyinWr = s.core.keyinWr ∧ t.core.done = s.core.done ∧
      ∀ n, t.core.keybuf.read n = s.core.keybuf.read n)

/-- The frame of ENC1, DEC1, ENC4 and DEC4 at the CMD write, accepted or rejected (R90, R91): no byte of DBUF or KEYBUF
and no key, variant or enable changes; a rejection leaves the sequencer and DONE as they were, an acceptance ERR and
ERRCODE. -/
def Obligations.TransformFrame : Prop :=
  ∀ (s t : State) (i : Instr), isTransform i → exec i s = .next t →
    t.rst = s.rst ∧ t.pending = s.pending ∧ t.responses = s.responses ∧ t.draws = s.draws ∧
    (∀ a, t.core.dbuf.read a = s.core.dbuf.read a) ∧ (∀ n, t.core.keybuf.read n = s.core.keybuf.read n) ∧
    t.core.k = s.core.k ∧ t.core.keyValid = s.core.keyValid ∧ t.core.variant = s.core.variant ∧
    t.core.keyinWr = s.core.keyinWr ∧ t.core.ieDone = s.core.ieDone ∧ t.core.ieErr = s.core.ieErr ∧
    (t.core.err = s.core.err ∧ t.core.errcode = s.core.errcode ∨
      t.core.seq = s.core.seq ∧ t.core.done = s.core.done ∧ t.core.x = s.core.x ∧ t.core.y = s.core.y ∧
      t.core.sum = s.core.sum ∧ t.core.rcnt = s.core.rcnt)

/-- R97: the completion step is enabled exactly while a command is in flight, transforms the command's blocks and no other
byte, frees the sequencer and sets DONE; with nothing pending it comes by itself (the model's fairness, log 2); a
completion event while IDLE, where R97 enables no step, is the model's step without effect (log 17); reset abandons the
command. ENC4 and DEC4, computed on the four lanes, give the scalar results of R97. -/
def Obligations.CompletionTransformsTheBlocks : Prop :=
  ∀ (s : State) (rest : List Event), s.rst = false →
    (s.pending = .complete :: rest → s.core.seq = .idle → step s = .next { s with pending := rest }) ∧
    (∀ op sel, s.core.seq = .busy op sel → s.pending = .complete :: rest ∨ (s.pending = [] ∧ rest = []) →
      ∃ t, step s = .next t ∧ CompletedAs op sel rest s t) ∧
    (s.pending = .rst true :: rest → ∃ t, step s = .next t ∧ t.core.seq = .idle ∧ ∀ a, t.core.dbuf.read a = 0)

/-! The cipher. -/

/-- R70 to R74: the word operations, as arithmetic on the unsigned values and on bits. -/
def Obligations.WordOperationsCompute : Prop :=
  ∀ a b : Word,
    (wordAdd a b).toNat = (a.toNat + b.toNat) % 2 ^ 32 ∧
    (wordSub a b).toNat = (a.toNat + 2 ^ 32 - b.toNat) % 2 ^ 32 ∧
    (b ≠ 0 → wordSub a b = wordAdd a (BitVec.ofNat 32 (2 ^ 32 - b.toNat))) ∧ wordSub a a = 0 ∧
    (∀ n, n < 32 → (wordXor a b).getLsbD n = (a.getLsbD n != b.getLsbD n)) ∧ wordXor a a = 0 ∧ wordXor a 0 = a ∧
    (∀ n, (wordShl a n).toNat = a.toNat * 2 ^ n % 2 ^ 32) ∧
    ∀ n, (wordShr a n).toNat = a.toNat / 2 ^ n

/-- R85: every lane of the parallel path holds what the single-block path computes. -/
def Obligations.LanesEqualTheSingleBlockPath : Prop :=
  ∀ (x y k : Words4) (v : Variant) (i : BitVec 2),
    ((vTeaEnc x y k v).1.get i, (vTeaEnc x y k v).2.get i) = teaEnc (x.get i) (y.get i) k v ∧
    ((vTeaDec x y k v).1.get i, (vTeaDec x y k v).2.get i) = teaDec (x.get i) (y.get i) k v

/-- R80: the decryption seed is DELTA << SHIFT. What follows it R80 marks as its own inference: ROUNDS = 2^SHIFT, so the
seed is DELTA * ROUNDS mod 2^32 and the final sum of every encryption. -/
def Obligations.DecryptionSeedIsTheFinalSum : Prop :=
  ∀ v : Variant, decSeed v = DELTA <<< v.shift ∧ v.rounds = 2 ^ v.shift ∧
    decSeed v = DELTA * BitVec.ofNat 32 v.rounds ∧
    ∀ (k : Words4) (x y : Word), (encRounds k v.rounds ⟨0, x, y⟩).sum = decSeed v

/-- R81, which the spec marks as derived: decryption undoes encryption and the other way round, and round by round: after j rounds of decryption the words
and the sum are those of encryption after R - j rounds, where the sum is DELTA * (R - j). -/
def Obligations.DecryptionInvertsEncryption : Prop :=
  ∀ (k : Words4) (v : Variant) (x y : Word),
    teaDec (teaEnc x y k v).1 (teaEnc x y k v).2 k v = (x, y) ∧
    teaEnc (teaDec x y k v).1 (teaDec x y k v).2 k v = (x, y) ∧
    ∀ j, j ≤ v.rounds →
      decRounds k j ⟨decSeed v, (teaEnc x y k v).1, (teaEnc x y k v).2⟩ = encRounds k (v.rounds - j) ⟨0, x, y⟩ ∧
      (encRounds k (v.rounds - j) ⟨0, x, y⟩).sum = DELTA * BitVec.ofNat 32 (v.rounds - j)

/-- R95, R96: what ENC4 leaves in DBUF is what ENC1 of blocks 0 to 3 in turn leaves, and the same for DEC4. -/
def Obligations.FourBlockTransformEqualsFourSingleOnes : Prop :=
  ∀ c : TeaCore,
    (let after := fun (b : BitVec 2) (m : Memory) => resultEnc1 b { c with dbuf := m }
     resultEnc4 c = after 3 (after 2 (after 1 (after 0 c.dbuf)))) ∧
    (let after := fun (b : BitVec 2) (m : Memory) => resultDec1 b { c with dbuf := m }
     resultDec4 c = after 3 (after 2 (after 1 (after 0 c.dbuf))))

/-- The corner cases of R93 to R96: ENC1 b and then DEC1 b, DEC1 b and then ENC1 b, ENC4 and then DEC4, DEC4 and then ENC4,
each restore DBUF. -/
def Obligations.DecryptAfterEncryptRestoresDbuf : Prop :=
  ∀ (c : TeaCore) (b : BitVec 2), c.dbuf.wf dbufBytes = true →
    resultDec1 b { c with dbuf := resultEnc1 b c } = c.dbuf ∧
    resultEnc1 b { c with dbuf := resultDec1 b c } = c.dbuf ∧
    resultDec4 { c with dbuf := resultEnc4 c } = c.dbuf ∧
    resultEnc4 { c with dbuf := resultDec4 c } = c.dbuf

/-! The sequencer and the invariants. -/

/-- R86, R87: from acceptance the reference sequencer does exactly ROUNDS(VARIANT) round steps, whatever the key and the
data; they change the lane registers only; the step after them completes the command. -/
def Obligations.ExactlyRoundsRoundSteps : Prop :=
  (∀ (s : State) (rest : List Event), s.rst = false → s.pending = .tick :: rest →
    step s = .next (State.tick { s with pending := rest })) ∧
  ∀ (s : State) (op : TransformOp) (sel : BitVec 2), s.core.seq = .busy op sel → s.core.rcnt = 0 →
    (∀ n, n ≤ s.core.variant.rounds →
      (ticks n s).core.rcnt.toNat = n ∧
      ticks n s = { s with core := { s.core with
        x := (ticks n s).core.x
        y := (ticks n s).core.y
        sum := (ticks n s).core.sum
        rcnt := (ticks n s).core.rcnt } }) ∧
    (ticks (s.core.variant.rounds + 1) s).core.seq = .idle ∧
    (ticks (s.core.variant.rounds + 1) s).core.done = true ∧
    (ticks (s.core.variant.rounds + 1) s).core.dbuf = transformResult op sel s.core

/-- R86: once the rounds are done, the lane registers hold what completion stores (given the invariant on the lanes). -/
def Obligations.LanesHoldTheResultWhenRoundsAreDone : Prop :=
  ∀ (c : TeaCore) (op : TransformOp) (sel i : BitVec 2), c.LanesFollowRounds → c.seq = .busy op sel →
    c.rcnt.toNat = c.variant.rounds → laneActive op sel i = true →
    loadBlock (transformResult op sel c) i = (c.x.get i, c.y.get i)

/-- The invariant holds at reset, whatever is to happen next (R38). The lane registers' reset values are log 5. -/
def Obligations.InvariantHoldsAtReset : Prop :=
  ∀ events : List Event, State.Inv { State.reset with pending := events }

/-- Every step keeps the invariant: canonical buffers, R39, the legal sequencer states and codes, staging bytes zero until
written, reset values while rst is asserted, and lane registers that follow the rounds (R86). The canonical form is log 13;
that the lane registers too hold the model's reset value while rst is asserted is log 5. -/
def Obligations.EveryStepKeepsTheInvariant : Prop :=
  ∀ s t : State, s.Inv → step s = .next t → t.Inv

/-- R39, which the spec marks as derived: the invariants of every reachable state. That VARIANT has three values is log 12.
The operands of a command in flight are those of the state in
which it was accepted: acceptance changes none of them, and neither does a step that leaves it in flight. -/
def Obligations.ReachableStatesKeepOperandsWhileBusy : Prop :=
  ∀ s : State, Reachable s →
    s.core.variant.code ≠ 3 ∧ (s.core.keyValid = false → ∀ j, s.core.k.get j = 0) ∧
    ∀ t, step s = .next t → t.core.busy = true →
      t.core.dbuf = s.core.dbuf ∧ t.core.k = s.core.k ∧ t.core.variant = s.core.variant ∧
      (s.core.busy = true → t.core.seq = s.core.seq)

/-- R20, R22: only an accepted LDKEY and reset write K, KEY_VALID and VARIANT. -/
def Obligations.OnlyLdkeyAndResetWriteTheKey : Prop :=
  ∀ s t : State, step s = .next t →
    t.core.k ≠ s.core.k ∨ t.core.keyValid ≠ s.core.keyValid ∨ t.core.variant ≠ s.core.variant →
    AcceptsLdkey s ∨ EntersReset s

/-- R20: DBUF is written only by a DATA write taken while IDLE, completion and reset; KEYBUF and KEYIN_WR only by KEY_IN
writes, an accepted LDKEY and reset; CTRL only by CTRL writes and reset. -/
def Obligations.OnlyListedEventsWriteTheBuffers : Prop :=
  ∀ s t : State, step s = .next t →
    (t.core.dbuf ≠ s.core.dbuf →
      (s.rst = false ∧ s.core.busy = false ∧ ∃ j w rest, s.pending = hostWR (.data j) w :: rest) ∨
      (s.core.busy = true ∧ t.core.busy = false) ∨ EntersReset s) ∧
    (t.core.keybuf ≠ s.core.keybuf ∨ t.core.keyinWr ≠ s.core.keyinWr →
      (s.rst = false ∧ ∃ i w rest, s.pending = hostWR (.keyIn i) w :: rest) ∨ AcceptsLdkey s ∨ EntersReset s) ∧
    (t.core.ieDone ≠ s.core.ieDone ∨ t.core.ieErr ≠ s.core.ieErr →
      (s.rst = false ∧ ∃ w rest, s.pending = hostWR .ctrl w :: rest) ∨ EntersReset s)

/-- R125: what sets and what clears the two interrupt sources, that nothing else does, and their enables. -/
def Obligations.FlagsSetAndClearedOnlyAsListed : Prop :=
  (∀ s t : State, step s = .next t →
    (s.core.done = false → t.core.done = true → AcceptsLdkey s ∨ (s.core.busy = true ∧ t.core.busy = false)) ∧
    (s.core.done = true → t.core.done = false →
      (∃ w rest, s.pending = hostWR .status w :: rest ∧ w.getLsbD 1 = true) ∨
      (s.core.busy = false ∧ t.core.busy = true) ∨ EntersReset s) ∧
    (s.core.err = false → t.core.err = true →
      FailsACheck s ∧ ∃ e rest code, s.pending = e :: rest ∧ code ∈ ([1, 2, 3, 4] : List (BitVec 4)) ∧
        t = afterRejection s rest code) ∧
    (s.core.err = true → t.core.err = false →
      (∃ w rest, s.pending = hostWR .status w :: rest ∧ w.getLsbD 2 = true) ∨ EntersReset s)) ∧
  (∀ s t : State, step s = .next t →
    (AcceptsLdkey s ∨ (s.core.busy = true ∧ t.core.busy = false ∧ ¬EntersReset s) → t.core.done = true) ∧
    ((s.rst = false ∧ ∃ w rest, s.pending = hostWR .status w :: rest ∧ w.getLsbD 1 = true) ∨
      (s.core.busy = false ∧ t.core.busy = true) ∨ EntersReset s → t.core.done = false) ∧
    (FailsACheck s → t.core.err = true) ∧
    ((s.rst = false ∧ ∃ w rest, s.pending = hostWR .status w :: rest ∧ w.getLsbD 2 = true) ∨ EntersReset s →
      t.core.err = false)) ∧
  ∀ c : TeaCore, c.irq = true ↔ (c.done = true ∧ c.ieDone = true) ∨ (c.err = true ∧ c.ieErr = true)

/-! The bus. -/

/-- R42, R44: an access that is not 32 bits wide or not aligned is answered with err = 1, rdata = 0, and changes nothing of
the core, ERR and ERRCODE included; any other access is answered without an error. -/
def Obligations.BusErrorsChangeNothing : Prop :=
  ∀ (s : State) (t : Transaction) (rest : List Event), s.rst = false → s.pending = .bus t :: rest →
    (t.size ≠ .word ∨ t.off.toNat % 4 ≠ 0 →
      (∀ off size, t = .read off size →
        step s = .next { s with pending := rest, responses := .read 0 true :: s.responses }) ∧
      ∀ off size w, t = .write off size w →
        step s = .next { s with pending := rest, responses := .write true :: s.responses }) ∧
    (t.size = .word → t.off.toNat % 4 = 0 →
      ∃ s', step s = .next s' ∧
        ((∃ d, s'.responses = .read d false :: s.responses) ∨ s'.responses = .write false :: s.responses))

/-- R29, R30, R31, R33 to R36: what an aligned read of each offset returns; it changes nothing of the core (R48). -/
def Obligations.AlignedReadsReturnTheRegister : Prop :=
  ∀ (s : State) (off : BitVec 6) (rest : List Event), s.rst = false → s.pending = .bus (.read off .word) :: rest →
    off.toNat % 4 = 0 →
    ∃ d, step s = .next (afterRead s rest d) ∧
      (off.toNat = 0 ∨ 0x0C ≤ off.toNat ∧ off.toNat < 0x20 → d = 0) ∧
      (off.toNat = 0x04 → d = 0#12 ++ s.core.keyinWr ++ 0#4 ++ s.core.errcode ++ 0#2 ++ s.core.variant.code ++
        BitVec.ofBool s.core.keyValid ++ BitVec.ofBool s.core.err ++ BitVec.ofBool s.core.done ++
        BitVec.ofBool s.core.busy) ∧
      (off.toNat = 0x08 → d = 0#30 ++ BitVec.ofBool s.core.ieErr ++ BitVec.ofBool s.core.ieDone) ∧
      (0x20 ≤ off.toNat → d = s.core.dbuf.read (off.toNat - 0x20 + 3) ++ s.core.dbuf.read (off.toNat - 0x20 + 2) ++
        s.core.dbuf.read (off.toNat - 0x20 + 1) ++ s.core.dbuf.read (off.toNat - 0x20))

/-- R31: where the fields of STATUS stand in the word a read returns. -/
def Obligations.StatusFieldsStandWhereTheTableSays : Prop :=
  ∀ c : TeaCore,
    c.statusWord.getLsbD 0 = c.busy ∧ c.statusWord.getLsbD 1 = c.done ∧ c.statusWord.getLsbD 2 = c.err ∧
    c.statusWord.getLsbD 3 = c.keyValid ∧ c.statusWord.extractLsb' 4 2 = c.variant.code ∧
    c.statusWord.extractLsb' 6 2 = 0 ∧ c.statusWord.extractLsb' 8 4 = c.errcode ∧
    c.statusWord.extractLsb' 12 4 = 0 ∧ c.statusWord.extractLsb' 16 4 = c.keyinWr ∧
    c.statusWord.extractLsb' 20 12 = 0

/-- R32: a STATUS write clears DONE and ERR with ERRCODE where its bits say so, and does nothing else, BUSY or not; a
completion or a rejection of any kind that follows it in the same cycle wins. -/
def Obligations.StatusWriteClearsOnlyDoneAndErr : Prop :=
  ∀ (s : State) (w : Word) (rest : List Event), s.rst = false → s.pending = hostWR .status w :: rest →
    ∃ t, step s = .next t ∧
      t = afterWrite s rest { s.core with
        done := if w.getLsbD 1 then false else s.core.done
        err := if w.getLsbD 2 then false else s.core.err
        errcode := if w.getLsbD 2 then 0 else s.core.errcode } ∧
      (∀ later, rest = .complete :: later → s.core.busy = true →
        ∃ u, step t = .next u ∧ u.core.done = true) ∧
      (FailsACheck t → ∃ u, step t = .next u ∧ u.core.err = true)

/-- R33: CTRL. A write sets the two enables from bits 0 and 1 and nothing else, BUSY or not; a read returns them; both are
0 at reset. -/
def Obligations.CtrlIsWrittenAndReadBack : Prop :=
  (∀ (s : State) (w : Word) (rest : List Event), s.rst = false → s.pending = hostWR .ctrl w :: rest →
    step s = .next (afterWrite s rest { s.core with ieDone := w.getLsbD 0, ieErr := w.getLsbD 1 })) ∧
  (∀ (s : State) (rest : List Event), s.rst = false → s.pending = hostRD .ctrl :: rest →
    step s = .next (afterRead s rest (0#30 ++ BitVec.ofBool s.core.ieErr ++ BitVec.ofBool s.core.ieDone))) ∧
  State.reset.core.ieDone = false ∧ State.reset.core.ieErr = false

/-- R34: a write of KEY_IN<i> stages four bytes and sets bit i of KEYIN_WR, and changes nothing else, BUSY or not; a read
returns 0 and has no effect. -/
def Obligations.KeyInWriteStagesFourBytes : Prop :=
  (∀ (s : State) (i : BitVec 2) (w : Word) (rest : List Event), s.rst = false →
    s.pending = hostWR (.keyIn i) w :: rest →
    ∃ t, step s = .next t ∧
      t = afterWrite s rest { s.core with keybuf := t.core.keybuf, keyinWr := t.core.keyinWr } ∧
      (∀ b, b < 4 → t.core.keybuf.read (4 * i.toNat + b) = w.extractLsb' (8 * b) 8) ∧
      (∀ n, n < 4 * i.toNat ∨ 4 * i.toNat + 4 ≤ n → t.core.keybuf.read n = s.core.keybuf.read n) ∧
      ∀ j, j < 4 → t.core.keyinWr.getLsbD j = (s.core.keyinWr.getLsbD j || decide (j = i.toNat))) ∧
  ∀ (s : State) (i : BitVec 2) (rest : List Event), s.rst = false → s.pending = hostRD (.keyIn i) :: rest →
    step s = .next (afterRead s rest 0)

/-- R35: the reserved offset reads 0 and ignores writes, with no error and no effect. -/
def Obligations.ReservedOffsetReadsZeroIgnoresWrites : Prop :=
  ∀ (s : State) (rest : List Event), s.rst = false →
    (s.pending = .bus (.read 0x0C .word) :: rest → step s = .next (afterRead s rest 0)) ∧
    ∀ w, s.pending = .bus (.write 0x0C .word w) :: rest → step s = .next (afterWrite s rest s.core)

/-- R36: DATA<j> shows the bytes DBUF holds, BUSY or not; a write while IDLE stores four bytes and changes nothing else, no
flag either; a write while BUSY is rejected and DBUF stays. -/
def Obligations.DataRegisterReadAndWrite : Prop :=
  ∀ (s : State) (j : BitVec 3) (rest : List Event), s.rst = false →
    (s.pending = hostRD (.data j) :: rest →
      step s = .next (afterRead s rest (s.core.dbuf.read (4 * j.toNat + 3) ++ s.core.dbuf.read (4 * j.toNat + 2) ++
        s.core.dbuf.read (4 * j.toNat + 1) ++ s.core.dbuf.read (4 * j.toNat)))) ∧
    ∀ w, s.pending = hostWR (.data j) w :: rest →
      (s.core.busy = true → step s = .next (afterRejection s rest 4)) ∧
      (s.core.busy = false → ∃ t, step s = .next t ∧ t = afterWrite s rest { s.core with dbuf := t.core.dbuf } ∧
        (∀ b, b < 4 → t.core.dbuf.read (4 * j.toNat + b) = w.extractLsb' (8 * b) 8) ∧
        ∀ a, a < 4 * j.toNat ∨ 4 * j.toNat + 4 ≤ a → t.core.dbuf.read a = s.core.dbuf.read a)

/-- R46: a cipher word is bswap32 of the bus word of the same four bytes, both for DATA and DBUF and for KEY_IN and K. -/
def Obligations.BusWordIsTheByteSwappedCipherWord : Prop :=
  (∀ w : Word, bswap32 w = w.extractLsb' 0 8 ++ w.extractLsb' 8 8 ++ w.extractLsb' 16 8 ++ w.extractLsb' 24 8) ∧
  (∀ (c : TeaCore) (j : BitVec 3) (w : Word), c.busy = false →
    (c.writeData j w).dbuf.readBE (4 * j.toNat) = bswap32 w) ∧
  (∀ (m : Memory) (j : BitVec 3) (w : Word), (m.writeBE (4 * j.toNat) w).readLanes (4 * j.toNat) = bswap32 w) ∧
  (∀ (c : TeaCore) (i : BitVec 2) (w : Word) (v : Variant),
    ((c.writeKeyIn i w).loadKey v).k.get i = bswap32 w) ∧
  ∀ (m : Memory) (i : BitVec 2) (w : Word), (m.writeBE (4 * i.toNat) w).readLanes (4 * i.toNat) = bswap32 w

/-- R48: reads change nothing; repeating a STATUS, KEY_IN or accepted DATA write has no further effect; a CMD write may
start a command and is not idempotent. -/
def Obligations.ReadsAndRepeatedWritesHaveNoFurtherEffect : Prop :=
  (∀ (s t : State) (off : BitVec 6) (size : AccessSize) (rest : List Event),
    s.pending = .bus (.read off size) :: rest → step s = .next t → t.core = s.core) ∧
  (∀ (c : TeaCore) (w : Word), (c.writeStatus w).writeStatus w = c.writeStatus w) ∧
  (∀ (c : TeaCore) (i : BitVec 2) (w : Word), c.keybuf.wf keybufBytes = true →
    (c.writeKeyIn i w).writeKeyIn i w = c.writeKeyIn i w) ∧
  (∀ (c : TeaCore) (j : BitVec 3) (w : Word), c.dbuf.wf dbufBytes = true → c.busy = false →
    (c.writeData j w).writeData j w = c.writeData j w) ∧
  ∃ (s t u : State) (w : Word), handleCmd w s = .next t ∧ t.core.busy = true ∧ handleCmd w t = .next u ∧
    u.core ≠ t.core

/-- R126: the interrupt output as a function of the current state, and that clearing an enable drops its part at once and
leaves the flag. That irq reaches IRQ_LINE and no other line is the model's reading of the parameter (log 18). -/
def Obligations.InterruptOutputIsALevel : Prop :=
  ∀ c : TeaCore,
    c.irq = ((c.done && c.ieDone) || (c.err && c.ieErr)) ∧
    (∀ line, c.irqOnLine line = (decide (line = Config.irqLine) && c.irq)) ∧
    ∀ w : Word,
      (c.writeCtrl w).done = c.done ∧ (c.writeCtrl w).err = c.err ∧
      (w.getLsbD 0 = false → w.getLsbD 1 = false → (c.writeCtrl w).irq = false) ∧
      (w.getLsbD 0 = false → (c.writeCtrl w).irq = (c.err && w.getLsbD 1)) ∧
      (w.getLsbD 1 = false → (c.writeCtrl w).irq = (c.done && w.getLsbD 0))

/-- R122's bullets, for a transaction pending before a completion: a CMD or DATA write is rejected with BUSY, a DATA read
returns the bytes from before the command, and a STATUS write leaves DONE = 1. The order is a hypothesis: the model's list
of events gives this order or the other (log 1), as R122 lets a model do. -/
def Obligations.TransactionGoesBeforeCompletion : Prop :=
  ∀ (s : State) (t : Transaction) (later : List Event), s.rst = false → s.core.busy = true →
    s.pending = .bus t :: .complete :: later →
    ∃ u v, step s = .next u ∧ step u = .next v ∧ v.core.busy = false ∧ v.core.done = true ∧
      (∀ w, .bus t = cmdWrite w ∨ (∃ j, .bus t = hostWR (.data j) w) →
        u = afterRejection s (.complete :: later) 4) ∧
      (∀ j, .bus t = hostRD (.data j) → u = afterRead s (.complete :: later) (s.core.dbuf.readLanes (4 * j.toNat)))

/-- R144: while BUSY, CMD and DATA writes are rejected with BUSY, neither retried nor queued; STATUS, CTRL and KEY_IN writes
are taken. -/
def Obligations.WritesWhileBusy : Prop :=
  ∀ (s : State) (w : Word) (rest : List Event), s.rst = false → s.core.busy = true →
    (s.pending = cmdWrite w :: rest ∨ (∃ j, s.pending = hostWR (.data j) w :: rest) →
      step s = .next (afterRejection s rest 4)) ∧
    (s.pending = hostWR .status w :: rest → step s = .next (afterWrite s rest (s.core.writeStatus w))) ∧
    (s.pending = hostWR .ctrl w :: rest → step s = .next (afterWrite s rest (s.core.writeCtrl w))) ∧
    ∀ i, s.pending = hostWR (.keyIn i) w :: rest → step s = .next (afterWrite s rest (s.core.writeKeyIn i w))

/-- R147, R142: after an accepted LDKEY another one is rejected with KEY_LEN, until all four KEY_IN words are written again,
in any order and with any repeats; no zero key is loaded silently. -/
def Obligations.KeyMustBeStagedAgain : Prop :=
  ∀ (s t : State) (v v' : Variant), s.core.busy = false → s.core.keyinWr = 15#4 →
    exec (.ldkey v.code) s = .next t →
    exec (.ldkey v'.code) t = .next { t with core := { t.core with err := true, errcode := 2 } } ∧
    ∀ (writes : List (BitVec 2 × Word)) (u : State), u = { t with core := stageKey writes t.core } →
      ((∀ i, ∃ w, (i, w) ∈ writes) →
        u.core.keyinWr = 15#4 ∧ exec (.ldkey v'.code) u = .next { u with core := u.core.loadKey v' }) ∧
      ∀ i, (∀ w, (i, w) ∉ writes) →
        u.core.keyinWr.getLsbD i.toNat = false ∧
        exec (.ldkey v'.code) u = .next { u with core := { u.core with err := true, errcode := 2 } }

/-- R22, R128, R132: no bus transaction tells the host anything of K, KEYBUF or the lane registers: from two states that
look the same to it, it gets the same responses and states that look the same. -/
def Obligations.TransactionsRevealNothingOfTheKey : Prop :=
  (∀ (s t s' t' : State) (tr : Transaction) (rest : List Event), s.core.SameView t.core → s.rst = t.rst →
    s.responses = t.responses → s.draws = t.draws → s.pending = .bus tr :: rest → t.pending = .bus tr :: rest →
    step s = .next s' → step t = .next t' → s'.core.SameView t'.core ∧ s'.responses = t'.responses) ∧
  ∀ c d : TeaCore, c.SameView d → c.irq = d.irq

/-- R41, R49: at every BASE, an access outside the window never reaches the core; inside it, the offset selects the register
by its bits 5:2. -/
def Obligations.WindowDecodesAddresses : Prop :=
  Config.base % 64 = 0 ∧
  (∀ (s : State) (addr : Nat) (size : AccessSize) (w : Word),
    (addr < Config.base ∨ Config.base + 64 ≤ addr → s.hostRead addr size = s ∧ s.hostWrite addr size w = s) ∧
    (Config.base ≤ addr → addr < Config.base + 64 → ∃ off : BitVec 6, off.toNat = addr - Config.base ∧
      s.hostRead addr size = { s with pending := s.pending ++ [.bus (.read off size)] } ∧
      s.hostWrite addr size w = { s with pending := s.pending ++ [.bus (.write off size w)] })) ∧
  ∀ off : BitVec 6, (Reg.select off).offset.toNat = 4 * (off.extractLsb' 2 4).toNat

/-- R7, R21, R40: whatever bus protocol the core is bound to, it provides every transaction of R40, with its size, and
carries every response, with its error. A master's transfer brings the port exactly its transaction, the signals the port
answers with are read back as exactly the core's response, and signals that stand for no transaction bring nothing (log 22). -/
def Obligations.EveryBusBindingCarriesTheTransactions : Prop :=
  ∀ (b : BusBinding) (s : State),
    (∀ t, s.transfer b (b.request t) = { s with pending := s.pending ++ [.bus t] }) ∧
    (∀ t, s.rst = false → s.pending = [] → ∃ u signals, step (s.transfer b (b.request t)) = .next u ∧
      u.pending = [] ∧ u.answers b = signals :: s.answers b ∧ b.readBack signals = some (t.response s.core)) ∧
    (∀ t t' : Transaction, b.request t = b.request t' → t = t') ∧
    (∀ r r' : Response, b.answer r = b.answer r' → r = r') ∧
    ∀ signals, b.accept signals = none → s.transfer b signals = s

/-! Reset and rest. -/

/-- R38: reset gives every piece of state the value of the table, and holds it until rst is released. -/
def Obligations.ResetSetsAndHoldsTheResetValues : Prop :=
  State.reset.core.HoldsResetValues ∧
  (∀ (s : State) (rest : List Event), s.pending = .rst true :: rest →
    ∃ t, step s = .next t ∧ t.rst = true ∧ t.core.HoldsResetValues) ∧
  ∀ s : State, s.rst = true → s.core.HoldsResetValues → ∃ t, step s = .next t ∧ t.core.HoldsResetValues

/-- R140: while rst is asserted the core takes no bus transaction and stays as it is; the port gives one response, which
is the BUS_BINDING's and free in the model (log 9). -/
def Obligations.NoTransactionIsTakenInReset : Prop :=
  ∀ (s : State) (t : Transaction) (rest : List Event), s.rst = true → s.pending = .bus t :: rest →
    ∃ u r, step s = .next u ∧ u.core = s.core ∧ u.rst = true ∧ u.pending = rest ∧ u.responses = r :: s.responses

/-- R141: without a key every transform is rejected with NO_KEY, LDKEY is rejected with KEY_LEN until all four KEY_IN words
are written, and so the first command that is accepted is LDKEY after all four. -/
def Obligations.FirstAcceptedCommandIsLdkey : Prop :=
  State.reset.core.seq = .idle ∧ State.reset.core.keyValid = false ∧ State.reset.core.done = false ∧
  State.reset.core.err = false ∧ State.reset.core.irq = false ∧
  ∀ s : State, s.core.busy = false → s.core.keyValid = false →
    (∀ i, isTransform i → exec i s = .next { s with core := { s.core with err := true, errcode := 3 } }) ∧
    (s.core.keyinWr ≠ 15#4 → ∀ v : Variant,
      exec (.ldkey v.code) s = .next { s with core := { s.core with err := true, errcode := 2 } }) ∧
    ∀ i t, exec i s = .next t → t.core.busy = true ∨ t.core.keyValid = true →
      s.core.keyinWr = 15#4 ∧ ∃ v : Variant, i = .ldkey v.code

/-- R97, R149: whatever is pending, the machine handles it and comes to rest with the sequencer idle: a command in flight
never stays in flight for ever. That the last command completes when nothing is pending is the model's fairness (log 2);
that events in reset, and sequencer events while IDLE, are taken from the list is the model's choice (log 9, log 17). -/
def Obligations.EveryRunComesToRest : Prop :=
  ∀ s : State, (s.rst = true → s.core.seq = .idle) →
    ∃ t, Host.Core.run Sys2Proof.core (s.pending.length + 1) s = .next t ∧ t.Quiescent
end

