-- ==== Sys2Proof/Laws/State.lean ====
section
/-! SUPPORT. What each named update does to each field of the state, one lemma per field per update. -/

namespace Sys2Proof.Machine

section CoreUpdates

variable (c : TeaCore)

@[simp] theorem TeaCore.reject_k (e : RejectCause) : (c.reject e).k = c.k := rfl
@[simp] theorem TeaCore.reject_keyValid (e : RejectCause) : (c.reject e).keyValid = c.keyValid := rfl
@[simp] theorem TeaCore.reject_variant (e : RejectCause) : (c.reject e).variant = c.variant := rfl
@[simp] theorem TeaCore.reject_keybuf (e : RejectCause) : (c.reject e).keybuf = c.keybuf := rfl
@[simp] theorem TeaCore.reject_keyinWr (e : RejectCause) : (c.reject e).keyinWr = c.keyinWr := rfl
@[simp] theorem TeaCore.reject_dbuf (e : RejectCause) : (c.reject e).dbuf = c.dbuf := rfl
@[simp] theorem TeaCore.reject_seq (e : RejectCause) : (c.reject e).seq = c.seq := rfl
@[simp] theorem TeaCore.reject_done (e : RejectCause) : (c.reject e).done = c.done := rfl
@[simp] theorem TeaCore.reject_err (e : RejectCause) : (c.reject e).err = true := rfl
@[simp] theorem TeaCore.reject_errcode (e : RejectCause) : (c.reject e).errcode = e.code := rfl
@[simp] theorem TeaCore.reject_ieDone (e : RejectCause) : (c.reject e).ieDone = c.ieDone := rfl
@[simp] theorem TeaCore.reject_ieErr (e : RejectCause) : (c.reject e).ieErr = c.ieErr := rfl
@[simp] theorem TeaCore.reject_x (e : RejectCause) : (c.reject e).x = c.x := rfl
@[simp] theorem TeaCore.reject_y (e : RejectCause) : (c.reject e).y = c.y := rfl
@[simp] theorem TeaCore.reject_sum (e : RejectCause) : (c.reject e).sum = c.sum := rfl
@[simp] theorem TeaCore.reject_rcnt (e : RejectCause) : (c.reject e).rcnt = c.rcnt := rfl
@[simp] theorem TeaCore.reject_busy (e : RejectCause) : (c.reject e).busy = c.busy := rfl

@[simp] theorem TeaCore.writeStatus_k (w : Word) : (c.writeStatus w).k = c.k := rfl
@[simp] theorem TeaCore.writeStatus_keyValid (w : Word) : (c.writeStatus w).keyValid = c.keyValid := rfl
@[simp] theorem TeaCore.writeStatus_variant (w : Word) : (c.writeStatus w).variant = c.variant := rfl
@[simp] theorem TeaCore.writeStatus_keybuf (w : Word) : (c.writeStatus w).keybuf = c.keybuf := rfl
@[simp] theorem TeaCore.writeStatus_keyinWr (w : Word) : (c.writeStatus w).keyinWr = c.keyinWr := rfl
@[simp] theorem TeaCore.writeStatus_dbuf (w : Word) : (c.writeStatus w).dbuf = c.dbuf := rfl
@[simp] theorem TeaCore.writeStatus_seq (w : Word) : (c.writeStatus w).seq = c.seq := rfl
@[simp] theorem TeaCore.writeStatus_done (w : Word) : (c.writeStatus w).done = (if w.getLsbD 1 then false else c.done) := rfl
@[simp] theorem TeaCore.writeStatus_err (w : Word) : (c.writeStatus w).err = (if w.getLsbD 2 then false else c.err) := rfl
@[simp] theorem TeaCore.writeStatus_errcode (w : Word) : (c.writeStatus w).errcode = (if w.getLsbD 2 then 0 else c.errcode) := rfl
@[simp] theorem TeaCore.writeStatus_ieDone (w : Word) : (c.writeStatus w).ieDone = c.ieDone := rfl
@[simp] theorem TeaCore.writeStatus_ieErr (w : Word) : (c.writeStatus w).ieErr = c.ieErr := rfl
@[simp] theorem TeaCore.writeStatus_x (w : Word) : (c.writeStatus w).x = c.x := rfl
@[simp] theorem TeaCore.writeStatus_y (w : Word) : (c.writeStatus w).y = c.y := rfl
@[simp] theorem TeaCore.writeStatus_sum (w : Word) : (c.writeStatus w).sum = c.sum := rfl
@[simp] theorem TeaCore.writeStatus_rcnt (w : Word) : (c.writeStatus w).rcnt = c.rcnt := rfl
@[simp] theorem TeaCore.writeStatus_busy (w : Word) : (c.writeStatus w).busy = c.busy := rfl

@[simp] theorem TeaCore.writeCtrl_k (w : Word) : (c.writeCtrl w).k = c.k := rfl
@[simp] theorem TeaCore.writeCtrl_keyValid (w : Word) : (c.writeCtrl w).keyValid = c.keyValid := rfl
@[simp] theorem TeaCore.writeCtrl_variant (w : Word) : (c.writeCtrl w).variant = c.variant := rfl
@[simp] theorem TeaCore.writeCtrl_keybuf (w : Word) : (c.writeCtrl w).keybuf = c.keybuf := rfl
@[simp] theorem TeaCore.writeCtrl_keyinWr (w : Word) : (c.writeCtrl w).keyinWr = c.keyinWr := rfl
@[simp] theorem TeaCore.writeCtrl_dbuf (w : Word) : (c.writeCtrl w).dbuf = c.dbuf := rfl
@[simp] theorem TeaCore.writeCtrl_seq (w : Word) : (c.writeCtrl w).seq = c.seq := rfl
@[simp] theorem TeaCore.writeCtrl_done (w : Word) : (c.writeCtrl w).done = c.done := rfl
@[simp] theorem TeaCore.writeCtrl_err (w : Word) : (c.writeCtrl w).err = c.err := rfl
@[simp] theorem TeaCore.writeCtrl_errcode (w : Word) : (c.writeCtrl w).errcode = c.errcode := rfl
@[simp] theorem TeaCore.writeCtrl_ieDone (w : Word) : (c.writeCtrl w).ieDone = w.getLsbD 0 := rfl
@[simp] theorem TeaCore.writeCtrl_ieErr (w : Word) : (c.writeCtrl w).ieErr = w.getLsbD 1 := rfl
@[simp] theorem TeaCore.writeCtrl_x (w : Word) : (c.writeCtrl w).x = c.x := rfl
@[simp] theorem TeaCore.writeCtrl_y (w : Word) : (c.writeCtrl w).y = c.y := rfl
@[simp] theorem TeaCore.writeCtrl_sum (w : Word) : (c.writeCtrl w).sum = c.sum := rfl
@[simp] theorem TeaCore.writeCtrl_rcnt (w : Word) : (c.writeCtrl w).rcnt = c.rcnt := rfl
@[simp] theorem TeaCore.writeCtrl_busy (w : Word) : (c.writeCtrl w).busy = c.busy := rfl

@[simp] theorem TeaCore.writeKeyIn_k (i : BitVec 2) (w : Word) : (c.writeKeyIn i w).k = c.k := rfl
@[simp] theorem TeaCore.writeKeyIn_keyValid (i : BitVec 2) (w : Word) : (c.writeKeyIn i w).keyValid = c.keyValid := rfl
@[simp] theorem TeaCore.writeKeyIn_variant (i : BitVec 2) (w : Word) : (c.writeKeyIn i w).variant = c.variant := rfl
@[simp] theorem TeaCore.writeKeyIn_keybuf (i : BitVec 2) (w : Word) : (c.writeKeyIn i w).keybuf = c.keybuf.writeLanes (4 * i.toNat) w := rfl
@[simp] theorem TeaCore.writeKeyIn_keyinWr (i : BitVec 2) (w : Word) : (c.writeKeyIn i w).keyinWr = c.keyinWr ||| (1#4 <<< i.toNat) := rfl
@[simp] theorem TeaCore.writeKeyIn_dbuf (i : BitVec 2) (w : Word) : (c.writeKeyIn i w).dbuf = c.dbuf := rfl
@[simp] theorem TeaCore.writeKeyIn_seq (i : BitVec 2) (w : Word) : (c.writeKeyIn i w).seq = c.seq := rfl
@[simp] theorem TeaCore.writeKeyIn_done (i : BitVec 2) (w : Word) : (c.writeKeyIn i w).done = c.done := rfl
@[simp] theorem TeaCore.writeKeyIn_err (i : BitVec 2) (w : Word) : (c.writeKeyIn i w).err = c.err := rfl
@[simp] theorem TeaCore.writeKeyIn_errcode (i : BitVec 2) (w : Word) : (c.writeKeyIn i w).errcode = c.errcode := rfl
@[simp] theorem TeaCore.writeKeyIn_ieDone (i : BitVec 2) (w : Word) : (c.writeKeyIn i w).ieDone = c.ieDone := rfl
@[simp] theorem TeaCore.writeKeyIn_ieErr (i : BitVec 2) (w : Word) : (c.writeKeyIn i w).ieErr = c.ieErr := rfl
@[simp] theorem TeaCore.writeKeyIn_x (i : BitVec 2) (w : Word) : (c.writeKeyIn i w).x = c.x := rfl
@[simp] theorem TeaCore.writeKeyIn_y (i : BitVec 2) (w : Word) : (c.writeKeyIn i w).y = c.y := rfl
@[simp] theorem TeaCore.writeKeyIn_sum (i : BitVec 2) (w : Word) : (c.writeKeyIn i w).sum = c.sum := rfl
@[simp] theorem TeaCore.writeKeyIn_rcnt (i : BitVec 2) (w : Word) : (c.writeKeyIn i w).rcnt = c.rcnt := rfl
@[simp] theorem TeaCore.writeKeyIn_busy (i : BitVec 2) (w : Word) : (c.writeKeyIn i w).busy = c.busy := rfl

@[simp] theorem TeaCore.loadKey_k (v : Variant) : (c.loadKey v).k = keyWords c.keybuf := rfl
@[simp] theorem TeaCore.loadKey_keyValid (v : Variant) : (c.loadKey v).keyValid = true := rfl
@[simp] theorem TeaCore.loadKey_variant (v : Variant) : (c.loadKey v).variant = v := rfl
@[simp] theorem TeaCore.loadKey_keybuf (v : Variant) : (c.loadKey v).keybuf = Memory.zero := rfl
@[simp] theorem TeaCore.loadKey_keyinWr (v : Variant) : (c.loadKey v).keyinWr = 0 := rfl
@[simp] theorem TeaCore.loadKey_dbuf (v : Variant) : (c.loadKey v).dbuf = c.dbuf := rfl
@[simp] theorem TeaCore.loadKey_seq (v : Variant) : (c.loadKey v).seq = c.seq := rfl
@[simp] theorem TeaCore.loadKey_done (v : Variant) : (c.loadKey v).done = true := rfl
@[simp] theorem TeaCore.loadKey_err (v : Variant) : (c.loadKey v).err = c.err := rfl
@[simp] theorem TeaCore.loadKey_errcode (v : Variant) : (c.loadKey v).errcode = c.errcode := rfl
@[simp] theorem TeaCore.loadKey_ieDone (v : Variant) : (c.loadKey v).ieDone = c.ieDone := rfl
@[simp] theorem TeaCore.loadKey_ieErr (v : Variant) : (c.loadKey v).ieErr = c.ieErr := rfl
@[simp] theorem TeaCore.loadKey_x (v : Variant) : (c.loadKey v).x = c.x := rfl
@[simp] theorem TeaCore.loadKey_y (v : Variant) : (c.loadKey v).y = c.y := rfl
@[simp] theorem TeaCore.loadKey_sum (v : Variant) : (c.loadKey v).sum = c.sum := rfl
@[simp] theorem TeaCore.loadKey_rcnt (v : Variant) : (c.loadKey v).rcnt = c.rcnt := rfl
@[simp] theorem TeaCore.loadKey_busy (v : Variant) : (c.loadKey v).busy = c.busy := rfl

@[simp] theorem TeaCore.accept_k (op : TransformOp) (sel : BitVec 2) : (c.accept op sel).k = c.k := rfl
@[simp] theorem TeaCore.accept_keyValid (op : TransformOp) (sel : BitVec 2) : (c.accept op sel).keyValid = c.keyValid := rfl
@[simp] theorem TeaCore.accept_variant (op : TransformOp) (sel : BitVec 2) : (c.accept op sel).variant = c.variant := rfl
@[simp] theorem TeaCore.accept_keybuf (op : TransformOp) (sel : BitVec 2) : (c.accept op sel).keybuf = c.keybuf := rfl
@[simp] theorem TeaCore.accept_keyinWr (op : TransformOp) (sel : BitVec 2) : (c.accept op sel).keyinWr = c.keyinWr := rfl
@[simp] theorem TeaCore.accept_dbuf (op : TransformOp) (sel : BitVec 2) : (c.accept op sel).dbuf = c.dbuf := rfl
@[simp] theorem TeaCore.accept_seq (op : TransformOp) (sel : BitVec 2) : (c.accept op sel).seq = .busy op sel := rfl
@[simp] theorem TeaCore.accept_done (op : TransformOp) (sel : BitVec 2) : (c.accept op sel).done = false := rfl
@[simp] theorem TeaCore.accept_err (op : TransformOp) (sel : BitVec 2) : (c.accept op sel).err = c.err := rfl
@[simp] theorem TeaCore.accept_errcode (op : TransformOp) (sel : BitVec 2) : (c.accept op sel).errcode = c.errcode := rfl
@[simp] theorem TeaCore.accept_ieDone (op : TransformOp) (sel : BitVec 2) : (c.accept op sel).ieDone = c.ieDone := rfl
@[simp] theorem TeaCore.accept_ieErr (op : TransformOp) (sel : BitVec 2) : (c.accept op sel).ieErr = c.ieErr := rfl
@[simp] theorem TeaCore.accept_x (op : TransformOp) (sel : BitVec 2) : (c.accept op sel).x = activeLanes op sel (deinterleave c.dbuf).1 c.x := rfl
@[simp] theorem TeaCore.accept_y (op : TransformOp) (sel : BitVec 2) : (c.accept op sel).y = activeLanes op sel (deinterleave c.dbuf).2 c.y := rfl
@[simp] theorem TeaCore.accept_sum (op : TransformOp) (sel : BitVec 2) : (c.accept op sel).sum = startSum op c.variant := rfl
@[simp] theorem TeaCore.accept_rcnt (op : TransformOp) (sel : BitVec 2) : (c.accept op sel).rcnt = 0 := rfl
@[simp] theorem TeaCore.accept_busy (op : TransformOp) (sel : BitVec 2) : (c.accept op sel).busy = true := rfl

@[simp] theorem TeaCore.roundStep_k (op : TransformOp) (sel : BitVec 2) : (c.roundStep op sel).k = c.k := rfl
@[simp] theorem TeaCore.roundStep_keyValid (op : TransformOp) (sel : BitVec 2) : (c.roundStep op sel).keyValid = c.keyValid := rfl
@[simp] theorem TeaCore.roundStep_variant (op : TransformOp) (sel : BitVec 2) : (c.roundStep op sel).variant = c.variant := rfl
@[simp] theorem TeaCore.roundStep_keybuf (op : TransformOp) (sel : BitVec 2) : (c.roundStep op sel).keybuf = c.keybuf := rfl
@[simp] theorem TeaCore.roundStep_keyinWr (op : TransformOp) (sel : BitVec 2) : (c.roundStep op sel).keyinWr = c.keyinWr := rfl
@[simp] theorem TeaCore.roundStep_dbuf (op : TransformOp) (sel : BitVec 2) : (c.roundStep op sel).dbuf = c.dbuf := rfl
@[simp] theorem TeaCore.roundStep_seq (op : TransformOp) (sel : BitVec 2) : (c.roundStep op sel).seq = c.seq := rfl
@[simp] theorem TeaCore.roundStep_done (op : TransformOp) (sel : BitVec 2) : (c.roundStep op sel).done = c.done := rfl
@[simp] theorem TeaCore.roundStep_err (op : TransformOp) (sel : BitVec 2) : (c.roundStep op sel).err = c.err := rfl
@[simp] theorem TeaCore.roundStep_errcode (op : TransformOp) (sel : BitVec 2) : (c.roundStep op sel).errcode = c.errcode := rfl
@[simp] theorem TeaCore.roundStep_ieDone (op : TransformOp) (sel : BitVec 2) : (c.roundStep op sel).ieDone = c.ieDone := rfl
@[simp] theorem TeaCore.roundStep_ieErr (op : TransformOp) (sel : BitVec 2) : (c.roundStep op sel).ieErr = c.ieErr := rfl
@[simp] theorem TeaCore.roundStep_x (op : TransformOp) (sel : BitVec 2) : (c.roundStep op sel).x = activeLanes op sel (laneRound op c.k ⟨c.sum, c.x, c.y⟩).x c.x := rfl
@[simp] theorem TeaCore.roundStep_y (op : TransformOp) (sel : BitVec 2) : (c.roundStep op sel).y = activeLanes op sel (laneRound op c.k ⟨c.sum, c.x, c.y⟩).y c.y := rfl
@[simp] theorem TeaCore.roundStep_sum (op : TransformOp) (sel : BitVec 2) : (c.roundStep op sel).sum = (laneRound op c.k ⟨c.sum, c.x, c.y⟩).sum := rfl
@[simp] theorem TeaCore.roundStep_rcnt (op : TransformOp) (sel : BitVec 2) : (c.roundStep op sel).rcnt = c.rcnt + 1 := rfl
@[simp] theorem TeaCore.roundStep_busy (op : TransformOp) (sel : BitVec 2) : (c.roundStep op sel).busy = c.busy := rfl

@[simp] theorem TeaCore.finish_k (n : Nat) (op : TransformOp) (sel : BitVec 2) : (c.finish n op sel).k = c.k := rfl
@[simp] theorem TeaCore.finish_keyValid (n : Nat) (op : TransformOp) (sel : BitVec 2) : (c.finish n op sel).keyValid = c.keyValid := rfl
@[simp] theorem TeaCore.finish_variant (n : Nat) (op : TransformOp) (sel : BitVec 2) : (c.finish n op sel).variant = c.variant := rfl
@[simp] theorem TeaCore.finish_keybuf (n : Nat) (op : TransformOp) (sel : BitVec 2) : (c.finish n op sel).keybuf = c.keybuf := rfl
@[simp] theorem TeaCore.finish_keyinWr (n : Nat) (op : TransformOp) (sel : BitVec 2) : (c.finish n op sel).keyinWr = c.keyinWr := rfl
@[simp] theorem TeaCore.finish_dbuf (n : Nat) (op : TransformOp) (sel : BitVec 2) : (c.finish n op sel).dbuf = transformResult op sel c := rfl
@[simp] theorem TeaCore.finish_seq (n : Nat) (op : TransformOp) (sel : BitVec 2) : (c.finish n op sel).seq = .idle := rfl
@[simp] theorem TeaCore.finish_done (n : Nat) (op : TransformOp) (sel : BitVec 2) : (c.finish n op sel).done = true := rfl
@[simp] theorem TeaCore.finish_err (n : Nat) (op : TransformOp) (sel : BitVec 2) : (c.finish n op sel).err = c.err := rfl
@[simp] theorem TeaCore.finish_errcode (n : Nat) (op : TransformOp) (sel : BitVec 2) : (c.finish n op sel).errcode = c.errcode := rfl
@[simp] theorem TeaCore.finish_ieDone (n : Nat) (op : TransformOp) (sel : BitVec 2) : (c.finish n op sel).ieDone = c.ieDone := rfl
@[simp] theorem TeaCore.finish_ieErr (n : Nat) (op : TransformOp) (sel : BitVec 2) : (c.finish n op sel).ieErr = c.ieErr := rfl
@[simp] theorem TeaCore.finish_x (n : Nat) (op : TransformOp) (sel : BitVec 2) : (c.finish n op sel).x = freeWords4 n 0 := rfl
@[simp] theorem TeaCore.finish_y (n : Nat) (op : TransformOp) (sel : BitVec 2) : (c.finish n op sel).y = freeWords4 n 4 := rfl
@[simp] theorem TeaCore.finish_sum (n : Nat) (op : TransformOp) (sel : BitVec 2) : (c.finish n op sel).sum = Config.freeWord n 8 := rfl
@[simp] theorem TeaCore.finish_rcnt (n : Nat) (op : TransformOp) (sel : BitVec 2) : (c.finish n op sel).rcnt = freeRoundCount n := rfl
@[simp] theorem TeaCore.finish_busy (n : Nat) (op : TransformOp) (sel : BitVec 2) : (c.finish n op sel).busy = false := rfl

end CoreUpdates

section StateUpdates

variable (s : State)

@[simp] theorem State.reject_core (e : RejectCause) : (s.reject e).core = s.core.reject e := rfl
@[simp] theorem State.reject_rst (e : RejectCause) : (s.reject e).rst = s.rst := rfl
@[simp] theorem State.reject_pending (e : RejectCause) : (s.reject e).pending = s.pending := rfl
@[simp] theorem State.reject_responses (e : RejectCause) : (s.reject e).responses = s.responses := rfl
@[simp] theorem State.reject_draws (e : RejectCause) : (s.reject e).draws = s.draws := rfl

@[simp] theorem State.popped_core (rest : List Event) : (s.popped rest).core = s.core := rfl
@[simp] theorem State.popped_rst (rest : List Event) : (s.popped rest).rst = s.rst := rfl
@[simp] theorem State.popped_pending (rest : List Event) : (s.popped rest).pending = rest := rfl
@[simp] theorem State.popped_responses (rest : List Event) : (s.popped rest).responses = s.responses := rfl
@[simp] theorem State.popped_draws (rest : List Event) : (s.popped rest).draws = s.draws := rfl

@[simp] theorem State.respond_core (r : Response) : (s.respond r).core = s.core := rfl
@[simp] theorem State.respond_rst (r : Response) : (s.respond r).rst = s.rst := rfl
@[simp] theorem State.respond_pending (r : Response) : (s.respond r).pending = s.pending := rfl
@[simp] theorem State.respond_responses (r : Response) : (s.respond r).responses = r :: s.responses := rfl
@[simp] theorem State.respond_draws (r : Response) : (s.respond r).draws = s.draws := rfl

@[simp] theorem State.setRst_core (b : Bool) : (s.setRst b).core = (if b then TeaCore.reset else s.core) := rfl
@[simp] theorem State.setRst_rst (b : Bool) : (s.setRst b).rst = b := rfl
@[simp] theorem State.setRst_pending (b : Bool) : (s.setRst b).pending = s.pending := rfl
@[simp] theorem State.setRst_responses (b : Bool) : (s.setRst b).responses = s.responses := rfl
@[simp] theorem State.setRst_draws (b : Bool) : (s.setRst b).draws = s.draws := rfl

end StateUpdates

end Sys2Proof.Machine
end

