-- ==== Sys2Proof/Laws/Memory.lean ====
section
/-! SUPPORT. Laws of the byte arrays: read after write, the canonical form, and the two word views. -/

namespace Sys2Proof.Machine

theorem Memory.read_erase (m : Memory) (a b : Nat) :
    (Memory.erase m a).read b = if a = b then 0 else m.read b := by
  induction m with
  | nil => simp [Memory.erase, Memory.read]
  | cons e rest ih =>
    obtain ⟨c, v⟩ := e
    by_cases hca : c = a
    · subst hca
      simp only [Memory.erase, if_true, ih, Memory.read]
      split <;> rfl
    · simp only [Memory.erase, if_neg hca, Memory.read, ih]
      by_cases hcb : c = b
      · have : ¬ a = b := fun h => hca (hcb.trans h.symm)
        simp [hcb, this]
      · simp [hcb]

theorem Memory.read_insert_same (m : Memory) (a : Nat) (v : Byte) (h : ∀ e ∈ m, e.1 ≠ a) :
    (Memory.insert m a v).read a = v := by
  induction m with
  | nil => simp [Memory.insert, Memory.read]
  | cons e rest ih =>
    obtain ⟨c, w⟩ := e
    have hca : c ≠ a := h (c, w) (by simp)
    simp only [Memory.insert]
    split
    · simp [Memory.read]
    · simp only [Memory.read, if_neg hca]
      exact ih fun e he => h e (by simp [he])

theorem Memory.read_insert_other (m : Memory) (a b : Nat) (v : Byte) (h : a ≠ b) :
    (Memory.insert m a v).read b = m.read b := by
  induction m with
  | nil => simp [Memory.insert, Memory.read, h]
  | cons e rest ih =>
    obtain ⟨c, w⟩ := e
    simp only [Memory.insert]
    split
    · simp [Memory.read, h]
    · simp only [Memory.read, ih]

theorem Memory.erase_keys (m : Memory) (a : Nat) : ∀ e ∈ Memory.erase m a, e.1 ≠ a := by
  induction m with
  | nil => simp [Memory.erase]
  | cons e rest ih =>
    obtain ⟨c, v⟩ := e
    by_cases hca : c = a
    · simpa only [Memory.erase, if_pos hca] using ih
    · simp only [Memory.erase, if_neg hca, List.mem_cons, forall_eq_or_imp]
      exact ⟨hca, ih⟩

/-- The spec of `Memory.write`: the written byte, and every other byte as before. -/
theorem Memory.read_write (m : Memory) (a b : Nat) (v : Byte) :
    (m.write a v).read b = if a = b then v else m.read b := by
  unfold Memory.write
  by_cases hv : v = 0
  · rw [if_pos hv, Memory.read_erase, hv]
  · simp only [if_neg hv]
    by_cases hab : a = b
    · subst hab
      simp [Memory.read_insert_same _ _ _ (Memory.erase_keys m a)]
    · simp [Memory.read_insert_other _ _ _ _ hab, Memory.read_erase, hab]

@[simp] theorem Memory.read_write_same (m : Memory) (a : Nat) (v : Byte) : (m.write a v).read a = v := by
  simp [Memory.read_write]

theorem Memory.read_write_other (m : Memory) {a b : Nat} (v : Byte) (h : a ≠ b) :
    (m.write a v).read b = m.read b := by
  simp [Memory.read_write, h]

@[simp] theorem Memory.read_zero (a : Nat) : Memory.zero.read a = 0 := rfl

@[simp] theorem Memory.readLanes_zero (a : Nat) : Memory.zero.readLanes a = 0 := by
  simp only [Memory.readLanes, Memory.read_zero]
  decide

@[simp] theorem Memory.readBE_zero (a : Nat) : Memory.zero.readBE a = 0 := by
  simp only [Memory.readBE, Memory.read_zero]
  decide

theorem Memory.wfFrom_le {lo lo' size : Nat} {m : Memory} (hle : lo' ≤ lo) (h : Memory.wfFrom lo size m = true) :
    Memory.wfFrom lo' size m = true := by
  cases m with
  | nil => rfl
  | cons e rest =>
    obtain ⟨a, v⟩ := e
    simp only [Memory.wfFrom, Bool.and_eq_true, decide_eq_true_eq] at h ⊢
    exact ⟨⟨⟨by omega, h.1.1.2⟩, h.1.2⟩, h.2⟩

theorem Memory.wfFrom_erase {lo size : Nat} {m : Memory} (a : Nat) (h : Memory.wfFrom lo size m = true) :
    Memory.wfFrom lo size (Memory.erase m a) = true := by
  induction m generalizing lo with
  | nil => rfl
  | cons e rest ih =>
    obtain ⟨b, v⟩ := e
    simp only [Memory.wfFrom, Bool.and_eq_true, decide_eq_true_eq] at h
    simp only [Memory.erase]
    split
    · exact Memory.wfFrom_le (by omega) (ih h.2)
    · simp only [Memory.wfFrom, Bool.and_eq_true, decide_eq_true_eq]
      exact ⟨h.1, ih h.2⟩

theorem Memory.wfFrom_insert {lo size : Nat} {m : Memory} {a : Nat} {v : Byte} (hlo : lo ≤ a) (ha : a < size)
    (hv : v ≠ 0) (hm : ∀ e ∈ m, e.1 ≠ a) (h : Memory.wfFrom lo size m = true) :
    Memory.wfFrom lo size (Memory.insert m a v) = true := by
  induction m generalizing lo with
  | nil => simpa [Memory.insert, Memory.wfFrom, hlo, ha] using hv
  | cons e rest ih =>
    obtain ⟨b, w⟩ := e
    have hb : b ≠ a := hm (b, w) (by simp)
    simp only [Memory.wfFrom, Bool.and_eq_true, decide_eq_true_eq] at h
    simp only [Memory.insert]
    split
    · simp only [Memory.wfFrom, Bool.and_eq_true, decide_eq_true_eq, bne_iff_ne]
      exact ⟨⟨⟨hlo, ha⟩, hv⟩, ⟨⟨by omega, h.1.1.2⟩, by simpa using h.1.2⟩, h.2⟩
    · simp only [Memory.wfFrom, Bool.and_eq_true, decide_eq_true_eq]
      exact ⟨h.1, ih (by omega) (fun e he => hm e (by simp [he])) h.2⟩

/-- Every write inside the array keeps the canonical form. -/
theorem Memory.wf_write {size : Nat} {m : Memory} {a : Nat} (v : Byte) (ha : a < size) (h : m.wf size = true) :
    (m.write a v).wf size = true := by
  unfold Memory.write Memory.wf
  split
  · exact Memory.wfFrom_erase a h
  · exact Memory.wfFrom_insert (by omega) ha ‹_› (Memory.erase_keys m a) (Memory.wfFrom_erase a h)

@[simp] theorem Memory.wf_zero (size : Nat) : Memory.wf size Memory.zero = true := rfl

theorem Memory.wf_writeBE {size : Nat} {m : Memory} {a : Nat} (w : Word) (ha : a + 3 < size) (h : m.wf size = true) :
    (m.writeBE a w).wf size = true :=
  Memory.wf_write _ ha (Memory.wf_write _ (by omega) (Memory.wf_write _ (by omega) (Memory.wf_write _ (by omega) h)))

theorem Memory.wf_writeLanes {size : Nat} {m : Memory} {a : Nat} (w : Word) (ha : a + 3 < size) (h : m.wf size = true) :
    (m.writeLanes a w).wf size = true :=
  Memory.wf_write _ ha (Memory.wf_write _ (by omega) (Memory.wf_write _ (by omega) (Memory.wf_write _ (by omega) h)))

theorem Memory.read_below {lo size : Nat} {m : Memory} (h : Memory.wfFrom lo size m = true) {a : Nat} (ha : a < lo) :
    m.read a = 0 := by
  induction m generalizing lo with
  | nil => rfl
  | cons e rest ih =>
    obtain ⟨b, v⟩ := e
    simp only [Memory.wfFrom, Bool.and_eq_true, decide_eq_true_eq] at h
    have hb : ¬ b = a := by omega
    simp only [Memory.read, if_neg hb]
    exact ih h.2 (by omega)

theorem Memory.eq_of_read_from {lo size : Nat} {m n : Memory} (hm : Memory.wfFrom lo size m = true)
    (hn : Memory.wfFrom lo size n = true) (h : ∀ a, m.read a = n.read a) : m = n := by
  induction m generalizing lo n with
  | nil =>
    cases n with
    | nil => rfl
    | cons e rest =>
      obtain ⟨b, v⟩ := e
      simp only [Memory.wfFrom, Bool.and_eq_true, bne_iff_ne] at hn
      exact absurd (h b).symm (by simpa [Memory.read] using hn.1.2)
  | cons e rest ih =>
    obtain ⟨a, v⟩ := e
    simp only [Memory.wfFrom, Bool.and_eq_true, bne_iff_ne, decide_eq_true_eq] at hm
    cases n with
    | nil => exact absurd (h a) (by simpa [Memory.read] using hm.1.2)
    | cons e' rest' =>
      obtain ⟨b, w⟩ := e'
      simp only [Memory.wfFrom, Bool.and_eq_true, bne_iff_ne, decide_eq_true_eq] at hn
      have ha := h a
      have hb := h b
      have hab : a = b := by
        rcases Nat.lt_trichotomy a b with hlt | heq | hgt
        · have hne : ¬ b = a := by omega
          simp only [Memory.read, if_true, if_neg hne, Memory.read_below hn.2 (by omega : a < b + 1)] at ha
          exact absurd ha hm.1.2
        · exact heq
        · have hne : ¬ a = b := by omega
          simp only [Memory.read, if_true, if_neg hne, Memory.read_below hm.2 (by omega : b < a + 1)] at hb
          exact absurd hb.symm hn.1.2
      subst hab
      have hvw : v = w := by simpa [Memory.read] using ha
      subst hvw
      have hrest : rest = rest' := by
        refine ih hm.2 hn.2 fun x => ?_
        by_cases hx : a = x
        · subst hx
          rw [Memory.read_below hm.2 (by omega), Memory.read_below hn.2 (by omega)]
        · simpa [Memory.read, hx] using h x
      rw [hrest]

/-- Two arrays in canonical form with the same bytes are equal. -/
theorem Memory.eq_of_read {size : Nat} {m n : Memory} (hm : m.wf size = true) (hn : n.wf size = true)
    (h : ∀ a, m.read a = n.read a) : m = n :=
  Memory.eq_of_read_from hm hn h

/-- The spec of `Memory.writeBE`: four bytes, the most significant first (R10, R45). -/
theorem Memory.read_writeBE (m : Memory) (a b : Nat) (w : Word) :
    (m.writeBE a w).read b =
      if b = a then lane w 3 else if b = a + 1 then lane w 2 else if b = a + 2 then lane w 1
      else if b = a + 3 then lane w 0 else m.read b := by
  simp only [Memory.writeBE, Memory.read_write]
  split_ifs <;> first | rfl | omega

/-- The spec of `Memory.writeLanes`: four bytes, the least significant first (R43). -/
theorem Memory.read_writeLanes (m : Memory) (a b : Nat) (w : Word) :
    (m.writeLanes a w).read b =
      if b = a then lane w 0 else if b = a + 1 then lane w 1 else if b = a + 2 then lane w 2
      else if b = a + 3 then lane w 3 else m.read b := by
  simp only [Memory.writeLanes, Memory.read_write]
  split_ifs <;> first | rfl | omega

theorem lanes_join (w : Word) : lane w 3 ++ lane w 2 ++ lane w 1 ++ lane w 0 = w := by
  apply BitVec.eq_of_getLsbD_eq
  intro i hi
  simp only [lane, BitVec.getLsbD_append, BitVec.getLsbD_extractLsb']
  split_ifs <;> simp <;> grind

/-- What was stored as a cipher word is read back as that word. -/
@[simp] theorem Memory.readBE_writeBE (m : Memory) (a : Nat) (w : Word) : (m.writeBE a w).readBE a = w := by
  simp only [Memory.readBE, Memory.read_writeBE]
  simp [lanes_join]

/-- A cipher word elsewhere is as before. -/
theorem Memory.readBE_writeBE_other (m : Memory) {a b : Nat} (w : Word) (h : b + 4 ≤ a ∨ a + 4 ≤ b) :
    (m.writeBE a w).readBE b = m.readBE b := by
  have byte : ∀ i, i < 4 → (m.writeBE a w).read (b + i) = m.read (b + i) := fun i hi => by
    rw [Memory.read_writeBE, if_neg (by omega), if_neg (by omega), if_neg (by omega), if_neg (by omega)]
  have first := byte 0 (by omega)
  rw [Nat.add_zero] at first
  simp only [Memory.readBE, first, byte 1 (by omega), byte 2 (by omega), byte 3 (by omega)]

/-- What was stored as a bus word is read back as that word. -/
@[simp] theorem Memory.readLanes_writeLanes (m : Memory) (a : Nat) (w : Word) :
    (m.writeLanes a w).readLanes a = w := by
  simp only [Memory.readLanes, lanesToWord, Memory.read_writeLanes]
  simp [lanes_join]

/-- A bus word elsewhere is as before. -/
theorem Memory.readLanes_writeLanes_other (m : Memory) {a b : Nat} (w : Word) (h : b + 4 ≤ a ∨ a + 4 ≤ b) :
    (m.writeLanes a w).readLanes b = m.readLanes b := by
  have byte : ∀ i, i < 4 → (m.writeLanes a w).read (b + i) = m.read (b + i) := fun i hi => by
    rw [Memory.read_writeLanes, if_neg (by omega), if_neg (by omega), if_neg (by omega), if_neg (by omega)]
  have first := byte 0 (by omega)
  rw [Nat.add_zero] at first
  simp only [Memory.readLanes, first, byte 1 (by omega), byte 2 (by omega), byte 3 (by omega)]

end Sys2Proof.Machine
end

