-- ==== Sys2Proof/Laws/Datapath.lean ====
section
/-! SUPPORT. Laws of the four-word vectors, of the rounds and of the blocks of DBUF. -/

namespace Sys2Proof.Machine

/-- The four values of a 2-bit field. -/
theorem bitVec2_cases (i : BitVec 2) : i = 0 ∨ i = 1 ∨ i = 2 ∨ i = 3 := by
  revert i
  decide

theorem bitVec2_toNat_lt (i : BitVec 2) : i.toNat < 4 := i.isLt

theorem bitVec3_toNat_lt (j : BitVec 3) : j.toNat < 8 := j.isLt

@[simp] theorem Words4.get_ofLanes (f : BitVec 2 → Word) (i : BitVec 2) : (Words4.ofLanes f).get i = f i := by
  rcases bitVec2_cases i with rfl | rfl | rfl | rfl <;> rfl

theorem Words4.eq_of_get {a b : Words4} (h : ∀ i, a.get i = b.get i) : a = b := by
  cases a
  cases b
  have h0 := h 0
  have h1 := h 1
  have h2 := h 2
  have h3 := h 3
  simp only [Words4.get] at h0 h1 h2 h3
  exact congr (congr (congr (congrArg Words4.mk h0) h1) h2) h3

@[simp] theorem Words4.get_zero (i : BitVec 2) : Words4.zero.get i = 0 := by
  rcases bitVec2_cases i with rfl | rfl | rfl | rfl <;> rfl

theorem get_activeLanes (op : TransformOp) (sel i : BitVec 2) (new old : Words4) :
    (activeLanes op sel new old).get i = if laneActive op sel i then new.get i else old.get i := by
  simp [activeLanes]

theorem get_vmix (v : Words4) (s ka kb : Word) (i : BitVec 2) : (vmix v s ka kb).get i = mix (v.get i) s ka kb := by
  simp [vmix, mix, vxor, vadd, vshl, vshr, splat]

theorem get_vadd (a b : Words4) (i : BitVec 2) : (vadd a b).get i = wordAdd (a.get i) (b.get i) := by
  simp [vadd]

theorem get_vsub (a b : Words4) (i : BitVec 2) : (vsub a b).get i = wordSub (a.get i) (b.get i) := by
  simp [vsub]

/-- One lane of the four, with the shared accumulator. -/
def LaneState.pair (l : LaneState) (i : BitVec 2) : PairState := ⟨l.sum, l.x.get i, l.y.get i⟩

/-- A round step on four lanes is the scalar round on each lane. -/
theorem pair_vencRound (k : Words4) (l : LaneState) (i : BitVec 2) :
    (vencRound k l).pair i = encRound k (l.pair i) := by
  simp [LaneState.pair, vencRound, encRound, get_vadd, get_vmix]

theorem pair_vdecRound (k : Words4) (l : LaneState) (i : BitVec 2) :
    (vdecRound k l).pair i = decRound k (l.pair i) := by
  simp [LaneState.pair, vdecRound, decRound, get_vsub, get_vmix]

/-- The laws of `n` rounds: none, one more at the start, one more at the end. -/
theorem encRounds_zero (k : Words4) (p : PairState) : encRounds k 0 p = p := rfl

theorem decRounds_zero (k : Words4) (p : PairState) : decRounds k 0 p = p := rfl

theorem encRounds_succ (k : Words4) (n : Nat) (p : PairState) : encRounds k (n + 1) p = encRounds k n (encRound k p) :=
  Function.iterate_succ_apply _ _ _

theorem decRounds_succ (k : Words4) (n : Nat) (p : PairState) : decRounds k (n + 1) p = decRounds k n (decRound k p) :=
  Function.iterate_succ_apply _ _ _

theorem encRounds_succ_last (k : Words4) (n : Nat) (p : PairState) :
    encRounds k (n + 1) p = encRound k (encRounds k n p) :=
  Function.iterate_succ_apply' _ _ _

theorem decRounds_succ_last (k : Words4) (n : Nat) (p : PairState) :
    decRounds k (n + 1) p = decRound k (decRounds k n p) :=
  Function.iterate_succ_apply' _ _ _

theorem pairRounds_succ_last (op : TransformOp) (k : Words4) (n : Nat) (p : PairState) :
    pairRounds op k (n + 1) p = if op.encrypts then encRound k (pairRounds op k n p) else decRound k (pairRounds op k n p) := by
  cases op <;> simp [pairRounds, TransformOp.encrypts, encRounds_succ_last, decRounds_succ_last]

theorem pair_laneRound (op : TransformOp) (k : Words4) (l : LaneState) (i : BitVec 2) :
    (laneRound op k l).pair i = if op.encrypts then encRound k (l.pair i) else decRound k (l.pair i) := by
  cases op <;> simp [laneRound, TransformOp.encrypts, pair_vencRound, pair_vdecRound]

/-- The two addresses of a block are inside DBUF. -/
theorem block_in_dbuf (b : BitVec 2) : 8 * b.toNat + 4 + 3 < dbufBytes := by
  have := bitVec2_toNat_lt b
  simp only [dbufBytes]
  omega

theorem wf_storeBlock {m : Memory} (b : BitVec 2) (p : Word × Word) (h : m.wf dbufBytes = true) :
    (storeBlock m b p).wf dbufBytes = true :=
  have := block_in_dbuf b
  Memory.wf_writeBE _ (by omega) (Memory.wf_writeBE _ (by omega) h)

@[simp] theorem loadBlock_storeBlock (m : Memory) (b : BitVec 2) (p : Word × Word) :
    loadBlock (storeBlock m b p) b = p := by
  simp only [loadBlock, storeBlock, Memory.readBE_writeBE]
  rw [Memory.readBE_writeBE_other _ _ (by omega), Memory.readBE_writeBE]

theorem loadBlock_storeBlock_other (m : Memory) {a b : BitVec 2} (p : Word × Word) (h : a ≠ b) :
    loadBlock (storeBlock m a p) b = loadBlock m b := by
  have hne : a.toNat ≠ b.toNat := fun e => h (BitVec.eq_of_toNat_eq e)
  simp only [loadBlock, storeBlock]
  rw [Memory.readBE_writeBE_other _ _ (by omega), Memory.readBE_writeBE_other _ _ (by omega),
    Memory.readBE_writeBE_other _ _ (by omega), Memory.readBE_writeBE_other _ _ (by omega)]

/-- A byte outside the block is as before. -/
theorem read_storeBlock_outside (m : Memory) (b : BitVec 2) (p : Word × Word) {a : Nat}
    (h : a < 8 * b.toNat ∨ 8 * b.toNat + 8 ≤ a) : (storeBlock m b p).read a = m.read a := by
  simp only [storeBlock, Memory.read_writeBE]
  split_ifs <;> first | rfl | omega

/-- The spec of `Interleave`: block i holds lane i (R84). -/
theorem loadBlock_interleave (m : Memory) (l : Words4 × Words4) (b : BitVec 2) :
    loadBlock (interleave m l) b = (l.1.get b, l.2.get b) := by
  rcases bitVec2_cases b with rfl | rfl | rfl | rfl <;>
    simp [interleave, loadBlock_storeBlock_other]

theorem wf_interleave {m : Memory} (l : Words4 × Words4) (h : m.wf dbufBytes = true) :
    (interleave m l).wf dbufBytes = true :=
  wf_storeBlock _ _ (wf_storeBlock _ _ (wf_storeBlock _ _ (wf_storeBlock _ _ h)))

theorem wf_transformResult {c : TeaCore} (op : TransformOp) (sel : BitVec 2) (h : c.dbuf.wf dbufBytes = true) :
    (transformResult op sel c).wf dbufBytes = true := by
  cases op
  · exact wf_storeBlock _ _ h
  · exact wf_storeBlock _ _ h
  · exact wf_interleave _ h
  · exact wf_interleave _ h

theorem readBE_eq_bswap32_readLanes (m : Memory) (a : Nat) : m.readBE a = bswap32 (m.readLanes a) := by
  have join : ∀ b0 b1 b2 b3 : Byte, bswap32 (lanesToWord b0 b1 b2 b3) = b0 ++ b1 ++ b2 ++ b3 := by
    intro b0 b1 b2 b3
    apply BitVec.eq_of_getLsbD_eq
    intro i hi
    simp only [bswap32, lanesToWord, lane, BitVec.getLsbD_append, BitVec.getLsbD_extractLsb']
    split_ifs <;> simp <;> grind
  exact (join _ _ _ _).symm

end Sys2Proof.Machine
end

