-- ==== Sys2Proof/Laws/Ops.lean ====
section
/-! SUPPORT. One lemma per shared operation that says everything it can do; later proofs cite these instead of
unfolding the machine. -/

namespace Sys2Proof.Machine

theorem TeaCore.busy_eq_true {c : TeaCore} : c.busy = true ↔ ∃ op sel, c.seq = .busy op sel := by
  unfold TeaCore.busy
  split <;> simp_all

theorem TeaCore.busy_eq_false {c : TeaCore} : c.busy = false ↔ c.seq = .idle := by
  unfold TeaCore.busy
  split <;> simp_all

/-- The codes of the three variants, and the reserved one. -/
theorem Variant.ofCode?_eq_some {code : BitVec 2} {v : Variant} : Variant.ofCode? code = some v ↔ v.code = code := by
  rcases bitVec2_cases code with rfl | rfl | rfl | rfl <;> cases v <;> decide

theorem Variant.ofCode?_eq_none {code : BitVec 2} : Variant.ofCode? code = none ↔ code = 3 := by
  rcases bitVec2_cases code with rfl | rfl | rfl | rfl <;> decide

/-- LDKEY is rejected, or loads the key. -/
theorem execLdkey_cases (var : BitVec 2) (s : State) :
    (∃ e, execLdkey var s = .next (s.reject e)) ∨
    (s.core.busy = false ∧ s.core.keyinWr = 15#4 ∧ ∃ v, v.code = var ∧
      execLdkey var s = .next { s with core := s.core.loadKey v }) := by
  unfold execLdkey whenIdle
  cases hb : s.core.busy with
  | true => exact .inl ⟨.busy, rfl⟩
  | false =>
    cases hv : Variant.ofCode? var with
    | none => exact .inl ⟨.illegal, rfl⟩
    | some v =>
      by_cases hk : s.core.keyinWr = 15#4
      · exact .inr ⟨rfl, hk, v, Variant.ofCode?_eq_some.1 hv, by simp [hk]⟩
      · exact .inl ⟨.keyLen, by simp [hk]⟩

/-- A transform command is rejected, or accepted. -/
theorem acceptTransform_cases (op : TransformOp) (sel : BitVec 2) (s : State) :
    (∃ e, acceptTransform op sel s = s.reject e) ∨
    (s.core.busy = false ∧ s.core.keyValid = true ∧
      acceptTransform op sel s = { s with core := s.core.accept op sel }) := by
  unfold acceptTransform whenIdle
  cases hb : s.core.busy with
  | true => exact .inl ⟨.busy, rfl⟩
  | false =>
    cases hk : s.core.keyValid with
    | true => exact .inr ⟨rfl, rfl, by simp⟩
    | false => exact .inl ⟨.noKey, by simp⟩

/-- What a command can do: be rejected, load the key, or be accepted. -/
theorem exec_cases (i : Instr) (s : State) :
    (∃ e, exec i s = .next (s.reject e)) ∨
    (s.core.busy = false ∧ s.core.keyinWr = 15#4 ∧ ∃ v, i = .ldkey v.code ∧
      exec i s = .next { s with core := s.core.loadKey v }) ∨
    (s.core.busy = false ∧ s.core.keyValid = true ∧ ∃ op sel, (op = .enc4 ∨ op = .dec4 → sel = 0) ∧
      exec i s = .next { s with core := s.core.accept op sel }) := by
  have transform : ∀ op sel, (op = .enc4 ∨ op = .dec4 → sel = (0 : BitVec 2)) →
      exec i s = .next (acceptTransform op sel s) →
      ((∃ e, exec i s = .next (s.reject e)) ∨
      (s.core.busy = false ∧ s.core.keyinWr = 15#4 ∧ ∃ v, i = .ldkey v.code ∧
        exec i s = .next { s with core := s.core.loadKey v }) ∨
      (s.core.busy = false ∧ s.core.keyValid = true ∧ ∃ op sel, (op = .enc4 ∨ op = .dec4 → sel = 0) ∧
        exec i s = .next { s with core := s.core.accept op sel })) := fun op sel h0 he => by
    rcases acceptTransform_cases op sel s with ⟨e, h⟩ | ⟨hb, hk, h⟩
    · exact Or.inl ⟨e, he.trans (congrArg _ h)⟩
    · exact Or.inr (Or.inr ⟨hb, hk, op, sel, h0, he.trans (congrArg _ h)⟩)
  cases i with
  | ldkey var =>
    rcases execLdkey_cases var s with h | ⟨hb, hk, v, rfl, h⟩
    · exact Or.inl h
    · exact Or.inr (Or.inl ⟨hb, hk, v, rfl, h⟩)
  | enc1 sel => exact transform .enc1 sel (by simp) rfl
  | dec1 sel => exact transform .dec1 sel (by simp) rfl
  | enc4 => exact transform .enc4 0 (by simp) rfl
  | dec4 => exact transform .dec4 0 (by simp) rfl

/-- Check 1 of R90 holds in every command's own meaning. -/
theorem exec_busy {s : State} (i : Instr) (h : s.core.busy = true) : exec i s = .next (s.reject .busy) := by
  cases i <;> simp [exec, execLdkey, execEnc1, execDec1, execEnc4, execDec4, acceptTransform, whenIdle, h]

/-- Every register is the one its own offset selects (R29, R41). -/
@[simp] theorem Reg.select_offset (r : Reg) : Reg.select r.offset = r := by
  cases r with
  | keyIn i => revert i; decide
  | data j => revert j; decide
  | _ => decide

/-- Every register's offset is aligned (R29). -/
@[simp] theorem Reg.offset_aligned (r : Reg) : r.offset.extractLsb' 0 2 = 0#2 := by
  cases r with
  | keyIn i => revert i; decide
  | data j => revert j; decide
  | _ => decide

/-- An aligned offset is the offset of the register it selects. -/
theorem Reg.offset_select {off : BitVec 6} (h : off.extractLsb' 0 2 = 0#2) : (Reg.select off).offset = off := by
  revert off
  decide

/-- The events of an aligned 32-bit access: what the step is. -/
theorem step_event {s : State} {e : Event} {rest : List Event} (hp : s.pending = e :: rest) :
    step s = handleEvent e (s.popped rest) := by
  simp only [step, hp]

theorem step_hostWR {s : State} {r : Reg} {w : Word} {rest : List Event} (hr : s.rst = false)
    (hp : s.pending = hostWR r w :: rest) : step s = r.write w ((s.popped rest).respond (.write false)) := by
  rw [step_event hp]
  simp [hostWR, handleEvent, hr, busTransaction, Transaction.isError, Transaction.size, Transaction.off,
    Transaction.response]

theorem step_hostRD {s : State} {r : Reg} {rest : List Event} (hr : s.rst = false)
    (hp : s.pending = hostRD r :: rest) :
    step s = .next ((s.popped rest).respond (.read (r.read s.core) false)) := by
  rw [step_event hp]
  simp [hostRD, handleEvent, hr, busTransaction, Transaction.isError, Transaction.size, Transaction.off,
    Transaction.response]

/-- A CMD write is handled as R90 says. -/
theorem step_cmdWrite {s : State} {w : Word} {rest : List Event} (hr : s.rst = false)
    (hp : s.pending = cmdWrite w :: rest) : step s = handleCmd w ((s.popped rest).respond (.write false)) :=
  step_hostWR (r := .cmd) hr hp

/-- Everything that can happen to the core in one event, the writes that change it with their conditions. -/
inductive CoreMove (c : TeaCore) : TeaCore → Prop where
  | stay : CoreMove c c
  | reject (e : RejectCause) : CoreMove c (c.reject e)
  | status (w : Word) : CoreMove c (c.writeStatus w)
  | ctrl (w : Word) : CoreMove c (c.writeCtrl w)
  | keyIn (i : BitVec 2) (w : Word) : CoreMove c (c.writeKeyIn i w)
  | data (j : BitVec 3) (w : Word) (hb : c.busy = false) :
      CoreMove c { c with dbuf := c.dbuf.writeLanes (4 * j.toNat) w }
  | loadKey (v : Variant) (hb : c.busy = false) (hk : c.keyinWr = 15#4) : CoreMove c (c.loadKey v)
  | accept (op : TransformOp) (sel : BitVec 2) (hb : c.busy = false) (hk : c.keyValid = true)
      (h0 : op = .enc4 ∨ op = .dec4 → sel = 0) : CoreMove c (c.accept op sel)
  | round (op : TransformOp) (sel : BitVec 2) (hs : c.seq = .busy op sel)
      (hr : c.rcnt.toNat < c.variant.rounds) : CoreMove c (c.roundStep op sel)
  | finish (n : Nat) (op : TransformOp) (sel : BitVec 2) (hs : c.seq = .busy op sel) : CoreMove c (c.finish n op sel)
  | reset : CoreMove c TeaCore.reset

theorem complete_move (s : State) : CoreMove s.core s.complete.core := by
  unfold State.complete
  split
  · exact .stay
  · exact .finish _ _ _ ‹_›

theorem tick_move (s : State) : CoreMove s.core s.tick.core := by
  unfold State.tick
  split
  · exact .stay
  · split
    · exact .round _ _ ‹_› ‹_›
    · exact complete_move s

theorem exec_move {i : Instr} {s t : State} (h : exec i s = .next t) : CoreMove s.core t.core := by
  rcases exec_cases i s with ⟨e, he⟩ | ⟨hb, hk, v, -, he⟩ | ⟨hb, hk, op, sel, h0, he⟩ <;>
    · rw [he] at h
      cases h
      constructor <;> assumption

theorem handleCmd_move {w : Word} {s t : State} (h : handleCmd w s = .next t) : CoreMove s.core t.core := by
  unfold handleCmd at h
  split at h
  · cases h
    exact .reject _
  · split at h
    · cases h
      exact .reject _
    · exact exec_move h

theorem regWrite_move {r : Reg} {w : Word} {s t : State} (h : r.write w s = .next t) : CoreMove s.core t.core := by
  cases r with
  | cmd => exact handleCmd_move h
  | status => cases h; exact .status _
  | ctrl => cases h; exact .ctrl _
  | reserved => cases h; exact .stay
  | keyIn i => cases h; exact .keyIn _ _
  | data j =>
    cases h
    simp only [TeaCore.writeData]
    split
    · exact .reject _
    · rename_i hb
      exact .data _ _ (by simpa using hb)

theorem busTransaction_move {t : Transaction} {s s' : State} (h : busTransaction t s = .next s') :
    CoreMove s.core s'.core := by
  unfold busTransaction at h
  cases t with
  | read off size => cases h; exact .stay
  | write off size w =>
    simp only at h
    split at h
    · cases h; exact .stay
    · exact regWrite_move (s := s.respond _) h

theorem handleEvent_move {e : Event} {s t : State} (h : handleEvent e s = .next t) : CoreMove s.core t.core := by
  cases e with
  | bus tr =>
    simp only [handleEvent] at h
    split at h
    · cases h; exact .stay
    · exact busTransaction_move h
  | tick =>
    simp only [handleEvent] at h
    cases h
    split
    · exact .stay
    · exact tick_move s
  | complete =>
    simp only [handleEvent] at h
    cases h
    split
    · exact .stay
    · exact complete_move s
  | rst b =>
    cases h
    cases b
    · exact .stay
    · exact .reset

/-- Everything one step can do to the core. -/
theorem step_move {s t : State} (h : step s = .next t) : CoreMove s.core t.core := by
  unfold step at h
  split at h
  · cases h
    unfold quietStep
    split
    · exact .stay
    · exact complete_move s
  · rename_i e rest hp
    exact handleEvent_move (s := s.popped rest) h

/-- A bus error, or a read, leaves the core as it is; any other transaction is the write of a register. -/
theorem busTransaction_cases {t : Transaction} {s s' : State} (h : busTransaction t s = .next s') :
    s'.core = s.core ∨ ∃ (r : Reg) (w : Word), t = .write r.offset .word w ∧
      r.write w (s.respond (.write false)) = .next s' := by
  unfold busTransaction at h
  cases t with
  | read off size => cases h; exact .inl rfl
  | write off size w =>
    simp only at h
    split at h
    · cases h; exact .inl rfl
    · rename_i he
      simp only [Transaction.isError, Transaction.size, Transaction.off, Bool.or_eq_true, bne_iff_ne, not_or,
        not_not] at he
      obtain ⟨rfl, ho⟩ := he
      have hoff := Reg.offset_select ho
      refine .inr ⟨Reg.select off, w, by rw [hoff], ?_⟩
      simpa [Transaction.response, Transaction.isError, Transaction.size, Transaction.off, ho] using h

/-- The command in flight does a round step or completes. -/
def CommandAdvances (c d : TeaCore) : Prop :=
  ∃ op sel, c.seq = .busy op sel ∧ (d = c.roundStep op sel ∨ ∃ n, d = c.finish n op sel)

theorem complete_advances (s : State) : s.complete.core = s.core ∨ CommandAdvances s.core s.complete.core := by
  unfold State.complete
  split
  · exact .inl rfl
  · exact .inr ⟨_, _, ‹_›, .inr ⟨_, rfl⟩⟩

theorem tick_advances (s : State) : s.tick.core = s.core ∨ CommandAdvances s.core s.tick.core := by
  unfold State.tick
  split
  · exact .inl rfl
  · split
    · exact .inr ⟨_, _, ‹_›, .inl rfl⟩
    · exact complete_advances s

/-- Everything one step can do: keep the core, enter reset, write a register, or advance the command in flight. -/
theorem step_cases {s t : State} (h : step s = .next t) :
    t.core = s.core ∨
    (t.core = TeaCore.reset ∧ ∃ rest, s.pending = .rst true :: rest) ∨
    (s.rst = false ∧ ∃ (r : Reg) (w : Word) (rest : List Event), s.pending = hostWR r w :: rest ∧
      r.write w ((s.popped rest).respond (.write false)) = .next t) ∨
    (s.rst = false ∧ CommandAdvances s.core t.core) := by
  unfold step at h
  split at h
  · cases h
    unfold quietStep
    split
    · exact .inl rfl
    · rename_i hr
      exact (complete_advances s).imp_right fun h => .inr (.inr ⟨by simpa using hr, h⟩)
  · rename_i e rest hp
    cases e with
    | bus tr =>
      simp only [handleEvent] at h
      split at h
      · cases h; exact .inl rfl
      · rename_i hr
        rcases busTransaction_cases h with hc | ⟨r, w, rfl, hw⟩
        · exact .inl hc
        · exact .inr (.inr (.inl ⟨by simpa using hr, r, w, rest, hp, hw⟩))
    | tick =>
      simp only [handleEvent] at h
      cases h
      split
      · exact .inl rfl
      · rename_i hr
        exact (tick_advances (s.popped rest)).imp_right fun h => .inr (.inr ⟨by simpa using hr, h⟩)
    | complete =>
      simp only [handleEvent] at h
      cases h
      split
      · exact .inl rfl
      · rename_i hr
        exact (complete_advances (s.popped rest)).imp_right fun h => .inr (.inr ⟨by simpa using hr, h⟩)
    | rst b =>
      cases h
      cases b
      · exact .inl rfl
      · exact .inr (.inl ⟨rfl, rest, hp⟩)

/-! What the surroundings keep: commands and register writes change nothing but the core. -/

/-- Same surroundings: everything of the state but the core. -/
structure SamePorts (s t : State) : Prop where
  rst : t.rst = s.rst
  pending : t.pending = s.pending
  responses : t.responses = s.responses
  draws : t.draws = s.draws

theorem exec_ports {i : Instr} {s t : State} (h : exec i s = .next t) : SamePorts s t := by
  rcases exec_cases i s with ⟨e, he⟩ | ⟨hb, hk, v, -, he⟩ | ⟨hb, hk, op, sel, h0, he⟩ <;>
    · rw [he] at h
      cases h
      exact ⟨rfl, rfl, rfl, rfl⟩

theorem regWrite_ports {r : Reg} {w : Word} {s t : State} (h : r.write w s = .next t) : SamePorts s t := by
  cases r with
  | cmd =>
    simp only [Reg.write, handleCmd] at h
    split at h
    · cases h; exact ⟨rfl, rfl, rfl, rfl⟩
    · split at h
      · cases h; exact ⟨rfl, rfl, rfl, rfl⟩
      · exact exec_ports h
  | _ => cases h; exact ⟨rfl, rfl, rfl, rfl⟩

/-- Every command answers a next state and leaves the surroundings (R90, R123). -/
theorem exec_next (i : Instr) (s : State) : ∃ t, exec i s = .next t ∧ SamePorts s t := by
  rcases exec_cases i s with ⟨e, he⟩ | ⟨-, -, v, -, he⟩ | ⟨-, -, op, sel, -, he⟩ <;>
    exact ⟨_, he, exec_ports he⟩

/-- Every register write answers a next state and leaves the surroundings (R29, R90). -/
theorem regWrite_next (r : Reg) (w : Word) (s : State) : ∃ t, r.write w s = .next t ∧ SamePorts s t := by
  have total : ∃ t, r.write w s = .next t := by
    cases r with
    | cmd =>
      simp only [Reg.write, handleCmd]
      split
      · exact ⟨_, rfl⟩
      · split
        · exact ⟨_, rfl⟩
        · exact (exec_next _ _).imp fun _ h => h.1
    | _ => exact ⟨_, rfl⟩
  exact total.imp fun _ h => ⟨h, regWrite_ports h⟩

/-- A transaction is always answered, with its response and nothing else around the core (R40). -/
theorem busTransaction_next (t : Transaction) (s : State) :
    ∃ u, busTransaction t s = .next u ∧ SamePorts (s.respond (t.response s.core)) u := by
  unfold busTransaction
  cases t with
  | read off size => exact ⟨_, rfl, rfl, rfl, rfl, rfl⟩
  | write off size w =>
    simp only
    split
    · exact ⟨_, rfl, rfl, rfl, rfl, rfl⟩
    · exact regWrite_next _ _ _

/-! The bus protocol. -/

/-- A master's transfer brings the port its transaction, whatever the protocol (R7, R40). -/
@[simp] theorem State.transfer_request (b : BusBinding) (t : Transaction) (s : State) :
    s.transfer b (b.request t) = { s with pending := s.pending ++ [.bus t] } := by
  simp [State.transfer, b.accept_request]

/-- Signals that stand for no transaction bring nothing. -/
theorem State.transfer_idle {b : BusBinding} {signals : Signals} (h : b.accept signals = none) (s : State) :
    s.transfer b signals = s := by
  simp [State.transfer, h]

@[simp] theorem State.answers_respond (b : BusBinding) (r : Response) (s : State) :
    (s.respond r).answers b = b.answer r :: s.answers b := rfl

end Sys2Proof.Machine
end

