-- ==== Sys2Proof/Laws/PerInstr.lean ====
section
/-! SUPPORT. Facts made per instruction: where the fields of each command word stand (30_encoding.md R61). -/

namespace Sys2Proof.Laws.WordFields

open Sys2Proof

/-- The opcode of each command (R63). -/
def opcode : Instr → BitVec 4
  | .ldkey _ => 1
  | .enc1 _ => 2
  | .dec1 _ => 3
  | .enc4 => 4
  | .dec4 => 5

/-- The reserved bits of the word are zero and its OP field is the opcode. -/
def Statement (i : Instr) : Prop :=
  resHiField (encode i) = 0 ∧ resMidField (encode i) = 0 ∧ opField (encode i) = opcode i

theorem commandWord_fields (sel var : BitVec 2) (op : BitVec 4) :
    resHiField (commandWord sel var op) = 0 ∧ selField (commandWord sel var op) = sel ∧
    resMidField (commandWord sel var op) = 0 ∧ varField (commandWord sel var op) = var ∧
    opField (commandWord sel var op) = op := by
  revert sel var op
  decide

theorem ldkey (var : BitVec 2) : Statement (.ldkey var) :=
  have h := commandWord_fields 0 var 1
  ⟨h.1, h.2.2.1, h.2.2.2.2⟩

theorem enc1 (sel : BitVec 2) : Statement (.enc1 sel) :=
  have h := commandWord_fields sel 0 2
  ⟨h.1, h.2.2.1, h.2.2.2.2⟩

theorem dec1 (sel : BitVec 2) : Statement (.dec1 sel) :=
  have h := commandWord_fields sel 0 3
  ⟨h.1, h.2.2.1, h.2.2.2.2⟩

theorem enc4 : Statement .enc4 :=
  have h := commandWord_fields 0 0 4
  ⟨h.1, h.2.2.1, h.2.2.2.2⟩

theorem dec4 : Statement .dec4 :=
  have h := commandWord_fields 0 0 5
  ⟨h.1, h.2.2.1, h.2.2.2.2⟩

end Sys2Proof.Laws.WordFields
end

