-- ==== Sys2Proof/Tests/Slice0.lean ====
section
/-! SUPPORT. The model's own tests, expected results from 95_test_vectors.md and the examples of the rules, and a
witness for the hypotheses of each statement of Certificates/Slice0/Obligations.lean. -/

namespace Sys2Proof.Tests

open Sys2Proof Sys2Proof.Machine

/-! States for the tests. -/

/-- Key bytes 00 01 .. 0F staged by four KEY_IN writes, nothing loaded (R92's example). -/
def stagedCore : TeaCore :=
  (((TeaCore.reset.writeKeyIn 0 0x03020100).writeKeyIn 1 0x07060504).writeKeyIn 2 0x0B0A0908).writeKeyIn 3 0x0F0E0D0C

/-- The machine with a core and events. -/
def machineWith (c : TeaCore) (events : List Event) : State := { State.reset with core := c, pending := events }

/-- The all-zero key loaded for TEA-32, DONE cleared. -/
def keyedCore : TeaCore := { TeaCore.reset with keyValid := true, variant := .tea32 }

/-- The same with block 1 = FF x 8. -/
def dataCore : TeaCore := (keyedCore.writeData 2 0xFFFFFFFF).writeData 3 0xFFFFFFFF

/-- ENC1 of block 0 in flight. -/
def busyCore : TeaCore := keyedCore.accept .enc1 0

/-- The core a next state holds. -/
def coreOf (o : Host.Outcome State Fault Refusal) : Option TeaCore :=
  match o with
  | .next t => some t.core
  | .fault r => nomatch r
  | .refused _ => none

/-! WellFormed: the ill-formed term of its one check is refused. -/

theorem test_reserved_variant_refused : Instr.wellFormed (.ldkey 3) = false := by decide

theorem test_legal_variant_accepted : Instr.wellFormed (.ldkey 2) = true := by decide

/-! Decode: words written out from R61 and R63. -/

theorem test_decode_ldkey_tea64 : decode 0b00000000000000000000000000100001 = .command (.ldkey 2) := by decide

theorem test_decode_enc1_b3 : decode 0b00000000000000000000001100000010 = .command (.enc1 3) := by decide

theorem test_decode_dec1_b2 : decode 0b00000000000000000000001000000011 = .command (.dec1 2) := by decide

theorem test_decode_enc4 : decode 0b00000000000000000000000000000100 = .command .enc4 := by decide

theorem test_decode_dec4 : decode 0b00000000000000000000000000000101 = .command .dec4 := by decide

/-- The illegal rows of 95_test_vectors.md section 2.7. -/
theorem test_decode_illegal_rows :
    ([0x000, 0x031, 0x101, 0x012, 0x104, 0x014, 0x006, 0x00F, 0x040, 0x080, 0x400, 0x80000002, 0xFFFFFFFF] :
      List Word).all (fun w => (decode w).instr?.isNone) = true := by decide

theorem test_decode_bytes_in_lane_order : decodeBytes [0x02, 0x01, 0x00, 0x00, 0xAA] = (.command (.enc1 1), [0xAA]) := by
  decide

theorem test_decode_bytes_too_short : decodeBytes [0x02, 0x01] = (.illegal .tooShort, [0x02, 0x01]) := by decide

theorem test_decode_table_word : decodeTableWord 32 0x302 = some (.enc1 3) := by decide

/-! Word operations and rounds (95_test_vectors.md sections 2.2 to 2.5). -/

theorem test_v_sub_1 : wordSub 0 0x9E3779B9 = 0x61C88647 := by decide

theorem test_v_shr_1 : wordShr 0x80000000 5 = 0x04000000 := by decide

theorem test_v_lane_1 : vadd ⟨1, 2, 0xFFFFFFFF, 0⟩ (splat 1) = ⟨2, 3, 0, 1⟩ := by decide

theorem test_v_mix_3 : mix 0x04050607 0x9E3779B9 0x00010203 0x04050607 = 0xE6483384 := by decide

/-- V-TR-2, after round 2. -/
theorem test_v_tr_2 :
    encRounds ⟨0x00010203, 0x04050607, 0x08090A0B, 0x0C0D0E0F⟩ 2 ⟨0, 0x00010203, 0x04050607⟩ =
      ⟨0x3C6EF372, 0xA92C0808, 0x6D2DC045⟩ := by decide +kernel

/-- V-TR-3. -/
theorem test_v_tr_3 :
    decRounds Words4.zero 1 ⟨decSeed .tea32, 0x41EA3A0A, 0x94BAA940⟩ = ⟨0x28B7BD67, 0xFA8572E9, 0x804528E6⟩ := by
  decide +kernel

/-- V-KAT-1, the source's own vector. -/
theorem test_v_kat_1 : teaEnc 0 0 Words4.zero .tea32 = (0x41EA3A0A, 0x94BAA940) := by decide +kernel

/-- V-ENC-2a, the dec column. -/
theorem test_v_enc_2a_dec :
    teaDec 0x00010203 0x04050607 ⟨0x00010203, 0x04050607, 0x08090A0B, 0x0C0D0E0F⟩ .tea16 = (0x003B4665, 0x08023F12) := by
  decide +kernel

/-- V-ENC-4c. -/
theorem test_v_enc_4c :
    teaEnc 0xFFFFFFFF 0xFFFFFFFF ⟨0x00010203, 0x04050607, 0x08090A0B, 0x0C0D0E0F⟩ .tea64 = (0x9DF43721, 0x279E1F30) := by
  decide +kernel

/-- V-LANE-ENC4: blocks 2 and 3 of the four-block vector. -/
theorem test_v_lane_enc4 :
    (vTeaEnc ⟨0x00010203, 0xFFFFFFFF, 0, 0x01234567⟩ ⟨0x04050607, 0xFFFFFFFF, 0, 0x89ABCDEF⟩
      ⟨0x00010203, 0x04050607, 0x08090A0B, 0x0C0D0E0F⟩ .tea64) =
      (⟨0xE7F2620F, 0x9DF43721, 0xBE7E7451, 0xE954506A⟩, ⟨0x02F60E7F, 0x279E1F30, 0xA0C045F0, 0x145472F8⟩) := by
  decide +kernel

/-! Commands: the examples of R92 to R96 and the rows of 95_test_vectors.md section 2.8. -/

theorem test_ldkey_splits_key :
    ((coreOf (exec (.ldkey 1) (machineWith stagedCore []))).map TeaCore.k) =
      some ⟨0x00010203, 0x04050607, 0x08090A0B, 0x0C0D0E0F⟩ := by decide +kernel

theorem test_ldkey_status :
    ((coreOf (exec (.ldkey 1) (machineWith stagedCore []))).map TeaCore.statusWord) = some 0x0000001A := by
  decide +kernel

/-- V-BUSY-1. -/
theorem test_enc1_status :
    ((coreOf (exec (.enc1 0) (machineWith { keyedCore with variant := .tea16 } []))).map TeaCore.statusWord) =
      some 0x00000009 := by decide +kernel

/-- R93's example. -/
theorem test_enc1_completes :
    ((coreOf (step (machineWith busyCore [.complete]))).map fun c => (c.dbuf.readLanes 0, c.dbuf.readLanes 4)) =
      some (0x0A3AEA41, 0x40A9BA94) := by decide +kernel

/-- R94's example. -/
theorem test_dec1_completes :
    ((coreOf (step (machineWith
      (((keyedCore.writeData 4 0x0A3AEA41).writeData 5 0x40A9BA94).accept .dec1 2) []))).map fun c => c.dbuf) =
      some [] := by decide +kernel

theorem test_dec1_without_key :
    ((coreOf (exec (.dec1 1) (machineWith stagedCore []))).map TeaCore.statusWord) = some 0x000F0304 := by
  decide +kernel

/-- R95's example, block 3. -/
theorem test_enc4_completes :
    ((coreOf (step (machineWith (keyedCore.accept .enc4 0) []))).map fun c => (c.dbuf.readLanes 24, c.dbuf.readLanes 28)) =
      some (0x0A3AEA41, 0x40A9BA94) := by decide +kernel

/-- V-REJ-NOKEY. -/
theorem test_enc4_without_key :
    ((coreOf (step (machineWith TeaCore.reset [cmdWrite 0x00000004]))).map TeaCore.statusWord) = some 0x00000304 := by
  decide +kernel

/-- R96's example, on block 0. -/
theorem test_dec4_completes :
    ((coreOf (step (machineWith (((keyedCore.writeData 0 0x0A3AEA41).writeData 1 0x40A9BA94).accept .dec4 0) []))).map
      fun c => (c.dbuf.readLanes 0, c.dbuf.readLanes 4)) = some (0, 0) := by decide +kernel

theorem test_dec4_lanes_loaded :
    ((coreOf (exec .dec4 (machineWith dataCore []))).map fun c => (c.x, c.sum)) =
      some (⟨0, 0xFFFFFFFF, 0, 0⟩, 0xC6EF3720) := by decide +kernel

/-- V-REJ-KEYLEN. -/
theorem test_short_key_rejected :
    ((coreOf (step (machineWith { stagedCore with keyinWr := 7 } [cmdWrite 0x00000001]))).map TeaCore.statusWord) =
      some 0x00070204 := by decide +kernel

/-- V-BUSY-2, with VARIANT 01. -/
theorem test_data_write_while_busy :
    ((coreOf (step (machineWith busyCore [hostWR (.data 0) 0xDEADBEEF]))).map TeaCore.statusWord) = some 0x0000041D := by
  decide +kernel

/-- V-BERR-1. -/
theorem test_misaligned_read :
    step (machineWith busyCore [.bus (.read 0x22 .word)]) =
      .next { machineWith busyCore [] with responses := [.read 0 true] } := by rfl

/-- V-RST: STATUS after reset reads 0. -/
theorem test_reset_status : TeaCore.reset.statusWord = 0 := by decide

/-- The word placed by `withFetchWord` is run by the next step: LDKEY with nothing staged is rejected with KEY_LEN. -/
theorem test_fetch_word_runs :
    ((coreOf (step (State.reset.withFetchWord 32 0x11))).map TeaCore.statusWord) = some 0x00000204 := by decide +kernel

theorem test_reset_memory_is_canonical : Memory.wf dbufBytes TeaCore.reset.dbuf = true := by decide

theorem test_parse_lower_case : parse? ['e', 'n', 'c', '1', ' ', 'b', '2'] = some (.enc1 2) := by decide

theorem test_parse_bare_number : parse? ['D', 'E', 'C', '1', ' ', '3'] = some (.dec1 3) := by decide

/-! Witnesses: states and operands that meet the hypotheses of the statements. -/

theorem witness_DecodingAnEncodedCommandGivesItBack :
    Instr.wellFormed (.ldkey 2) = true ∧ Instr.wellFormed (.enc1 3) = true ∧ Instr.wellFormed .dec4 = true := by decide

theorem witness_EncodingADecodedWordGivesItBack : decode 0x00000303 = .command (.dec1 3) := by decide

theorem witness_IllegalWordsAreRejected_idle :
    (machineWith keyedCore [cmdWrite 0x31]).rst = false ∧ (machineWith keyedCore [cmdWrite 0x31]).core.busy = false ∧
    (machineWith keyedCore [cmdWrite 0x31]).pending = [cmdWrite 0x31] ∧ decode 0x31 = .illegal .reservedVariant := by
  decide

theorem witness_IllegalWordsAreRejected_busy :
    (machineWith busyCore [cmdWrite 0]).core.busy = true ∧ decode 0 = .illegal .reservedOpcode := by decide

theorem witness_PrintedCommandsParseBack : Instr.wellFormed (.enc1 0) = true := by decide

theorem witness_StepRunsTheDecodedCommand :
    (machineWith keyedCore [cmdWrite 0x002]).rst = false ∧
    (machineWith keyedCore [cmdWrite 0x002]).pending = cmdWrite 0x002 :: [] ∧ decode 0x002 = .command (.enc1 0) ∧
    decodeTableWord 32 0x002 = some (.enc1 0) := by decide

/-- Boundary offsets of the CMD register: the word at 0 and the misaligned 3. -/
theorem witness_CommandChecksInOrder_bus_error :
    (3#6).toNat < 4 ∧ (3#6 : BitVec 6) ≠ 0 ∧
    (machineWith keyedCore [.bus (.write 3 .word 4)]).pending = .bus (.write 3 .word 4) :: [] := by decide

theorem witness_CommandChecksInOrder_busy :
    (machineWith busyCore [cmdWrite 0x31]).rst = false ∧ (machineWith busyCore [cmdWrite 0x31]).core.busy = true := by
  decide

theorem witness_CommandChecksInOrder_illegal :
    (machineWith TeaCore.reset [cmdWrite 0x31]).core.busy = false ∧ decode 0x31 = .illegal .reservedVariant := by decide

theorem witness_CommandChecksInOrder_keyLen :
    TeaCore.reset.busy = false ∧ decode 0x01 = .command (.ldkey 0) ∧ TeaCore.reset.keyinWr ≠ 15#4 := by decide

theorem witness_CommandChecksInOrder_noKey :
    TeaCore.reset.busy = false ∧ decode 0x04 = .command .enc4 ∧ TeaCore.reset.keyValid = false := by decide

theorem witness_isTransform : isTransform .enc4 ∧ isTransform (.dec1 3) := by
  constructor <;> intro var h <;> cases h

theorem witness_LdkeyLoadsTheStagedKey :
    (machineWith stagedCore []).core.busy = false ∧ (machineWith stagedCore []).core.keyinWr = 15#4 := by decide

theorem witness_TransformsAreAccepted :
    (machineWith keyedCore []).core.busy = false ∧ (machineWith keyedCore []).core.keyValid = true := by decide

theorem witness_LdkeyFrame_accepted :
    (∃ t, exec (.ldkey 1) (machineWith stagedCore []) = .next t ∧ t.core.keyValid = true) ∧ stagedCore.busy = false ∧
    stagedCore.keyinWr = 15#4 ∧ (1#2) ≠ 3 := ⟨⟨_, rfl, by decide⟩, by decide, by decide, by decide⟩

/-- Three of four KEY_IN words written. -/
theorem witness_LdkeyFrame_rejected :
    (∃ t, exec (.ldkey 1) (machineWith { stagedCore with keyinWr := 7 } []) = .next t ∧ t.core.err = true) ∧
    ¬(({ stagedCore with keyinWr := 7 }).busy = false ∧ ({ stagedCore with keyinWr := 7 }).keyinWr = 15#4 ∧ (1#2) ≠ 3) :=
  ⟨⟨_, rfl, by decide⟩, by decide⟩

theorem witness_TransformFrame :
    ∃ t, exec (.enc1 3) (machineWith keyedCore []) = .next t ∧ t.core.busy = true := ⟨_, rfl, by decide⟩

theorem witness_CompletionTransformsTheBlocks :
    (machineWith busyCore [.complete]).rst = false ∧ busyCore.seq = .busy .enc1 0 ∧
    (machineWith busyCore [.complete]).pending = .complete :: [] ∧ (machineWith busyCore []).pending = [] ∧
    (machineWith keyedCore [.complete]).core.seq = .idle ∧
    (machineWith busyCore [.rst true]).pending = .rst true :: [] := by decide

theorem witness_CompletionTransformsTheBlocks_four : (keyedCore.accept .enc4 0).seq = .busy .enc4 0 := by decide

/-- The bytes just outside block 1, and the first address beyond DBUF. -/
theorem witness_CompletedAs_boundaries :
    (7 < 8 * (1#2).toNat ∧ 8 * (1#2).toNat + 8 ≤ 16) ∧ 8 * (3#2).toNat + 8 ≤ 32 := by decide

theorem witness_WordOperationsCompute : (0x80000000 : Word) ≠ 0 ∧ 31 < 32 := by decide

theorem witness_DecryptionInvertsEncryption : 16 ≤ Variant.tea16.rounds ∧ 0 ≤ Variant.tea64.rounds := by decide

theorem witness_DecryptAfterEncryptRestoresDbuf : dataCore.dbuf.wf dbufBytes = true := by decide

theorem witness_ExactlyRoundsRoundSteps :
    (machineWith busyCore [.tick]).rst = false ∧ (machineWith busyCore [.tick]).pending = .tick :: [] ∧
    busyCore.seq = .busy .enc1 0 ∧ busyCore.rcnt = 0 ∧ 32 ≤ busyCore.variant.rounds := by decide

/-- ENC1 of block 0 after all 32 rounds of its lane. -/
def lastRoundCore : TeaCore :=
  { busyCore with x := ⟨0x41EA3A0A, 0, 0, 0⟩, y := ⟨0x94BAA940, 0, 0, 0⟩, sum := 0xC6EF3720, rcnt := 32 }

theorem witness_LanesHoldTheResultWhenRoundsAreDone :
    lastRoundCore.LanesFollowRounds ∧ lastRoundCore.seq = .busy .enc1 0 ∧
    lastRoundCore.rcnt.toNat = lastRoundCore.variant.rounds ∧ laneActive .enc1 0 0 = true := by
  refine ⟨?_, by decide, by decide, by decide⟩
  intro op sel hs
  have hs' : op = .enc1 ∧ sel = 0 := by
    simp only [lastRoundCore, busyCore, TeaCore.accept_seq, Seq.busy.injEq] at hs
    exact ⟨hs.1.symm, hs.2.symm⟩
  obtain ⟨rfl, rfl⟩ := hs'
  refine ⟨by decide, fun i hi => ?_⟩
  rcases bitVec2_cases i with rfl | rfl | rfl | rfl
  · decide +kernel
  all_goals exact absurd hi (by decide)

/-- The reset state meets the machine's invariant. -/
theorem witness_EveryStepKeepsTheInvariant : State.Inv State.reset ∧ ∃ t, step State.reset = .next t := by
  refine ⟨⟨⟨rfl, rfl, fun _ => rfl, by decide, by decide, ?_, by decide, by decide, ?_, by decide, ?_⟩, by decide⟩,
    _, rfl⟩
  · intro op sel h
    cases h
  · intro i _
    exact Memory.readLanes_zero _
  · intro op sel h
    cases h

theorem witness_ReachableStatesKeepOperandsWhileBusy :
    Reachable (machineWith TeaCore.reset [cmdWrite 0x004]) ∧ TeaCore.reset.keyValid = false := ⟨.reset _, rfl⟩

theorem witness_ReachableStatesKeepOperandsWhileBusy_busy :
    ∃ t, step (machineWith busyCore [cmdWrite 0x004]) = .next t ∧ t.core.busy = true := ⟨_, rfl, by decide⟩

theorem witness_AcceptsLdkey : AcceptsLdkey (machineWith stagedCore [cmdWrite 0x011]) :=
  ⟨rfl, by decide, by decide, 0x011, 1, [], rfl, by decide⟩

theorem witness_EntersReset : EntersReset (machineWith busyCore [.rst true]) := ⟨[], rfl⟩

theorem witness_OnlyLdkeyAndResetWriteTheKey :
    ∃ t, step (machineWith stagedCore [cmdWrite 0x011]) = .next t ∧ t.core.keyValid ≠ stagedCore.keyValid :=
  ⟨_, rfl, by decide⟩

theorem witness_OnlyListedEventsWriteTheBuffers_dbuf :
    ∃ t, step (machineWith keyedCore [hostWR (.data 7) 1]) = .next t ∧ t.core.dbuf ≠ keyedCore.dbuf :=
  ⟨_, rfl, by decide⟩

theorem witness_OnlyListedEventsWriteTheBuffers_keybuf :
    ∃ t, step (machineWith busyCore [hostWR (.keyIn 3) 1]) = .next t ∧ t.core.keyinWr ≠ busyCore.keyinWr :=
  ⟨_, rfl, by decide⟩

theorem witness_OnlyListedEventsWriteTheBuffers_ctrl :
    ∃ t, step (machineWith busyCore [hostWR .ctrl 3]) = .next t ∧ t.core.ieErr ≠ busyCore.ieErr := ⟨_, rfl, by decide⟩

/-! Every kind of rejection. -/

theorem witness_FailsACheck_cmd_while_busy : FailsACheck (machineWith busyCore [cmdWrite 0x004]) :=
  ⟨rfl, .inl ⟨0x004, [], rfl, .inl rfl⟩⟩

theorem witness_FailsACheck_illegal : FailsACheck (machineWith keyedCore [cmdWrite 0x031]) :=
  ⟨rfl, .inl ⟨0x031, [], rfl, .inr (.inl ⟨.reservedVariant, by decide⟩)⟩⟩

theorem witness_FailsACheck_keyLen : FailsACheck (machineWith { stagedCore with keyinWr := 7 } [cmdWrite 0x011]) :=
  ⟨rfl, .inl ⟨0x011, [], rfl, .inr (.inr (.inl ⟨⟨1, by decide⟩, by decide⟩))⟩⟩

theorem witness_FailsACheck_noKey : FailsACheck (machineWith TeaCore.reset [cmdWrite 0x004]) :=
  ⟨rfl, .inl ⟨0x004, [], rfl, .inr (.inr (.inr ⟨⟨.enc4, witness_isTransform.1, by decide⟩, rfl⟩))⟩⟩

theorem witness_FailsACheck_data_while_busy : FailsACheck (machineWith busyCore [hostWR (.data 7) 1]) :=
  ⟨rfl, .inr ⟨rfl, 7, 1, [], rfl⟩⟩

theorem witness_FlagsSetAndClearedOnlyAsListed_done_set :
    ∃ t, step (machineWith busyCore []) = .next t ∧ busyCore.done = false ∧ t.core.done = true := ⟨_, rfl, rfl, rfl⟩

theorem witness_FlagsSetAndClearedOnlyAsListed_done_cleared :
    ∃ t, step (machineWith { keyedCore with done := true } [hostWR .status 2]) = .next t ∧ t.core.done = false :=
  ⟨_, rfl, by decide⟩

theorem witness_FlagsSetAndClearedOnlyAsListed_err_set :
    ∃ t, step (machineWith busyCore [cmdWrite 0x004]) = .next t ∧ busyCore.err = false ∧ t.core.err = true :=
  ⟨_, rfl, rfl, by decide⟩

theorem witness_FlagsSetAndClearedOnlyAsListed_err_cleared :
    ∃ t, step (machineWith { busyCore with err := true, errcode := 4 } [hostWR .status 4]) = .next t ∧
      t.core.err = false := ⟨_, rfl, by decide⟩

/-- The last misaligned offset, and a narrow access at an aligned one. -/
theorem witness_BusErrorsChangeNothing :
    (Transaction.read 0x3F .word).off.toNat % 4 ≠ 0 ∧ (Transaction.write 0x20 .byte 0).size ≠ .word ∧
    (Transaction.read 0x3C .word).size = .word ∧ (Transaction.read 0x3C .word).off.toNat % 4 = 0 ∧
    (machineWith busyCore [.bus (.read 0x3F .word)]).pending = .bus (.read 0x3F .word) :: [] := by decide

/-- The first and last offset of each clause. -/
theorem witness_AlignedReadsReturnTheRegister :
    (0x00#6).toNat = 0 ∧ (0x04#6).toNat = 0x04 ∧ (0x08#6).toNat = 0x08 ∧ 0x0C ≤ (0x0C#6).toNat ∧
    (0x1C#6).toNat < 0x20 ∧ 0x20 ≤ (0x20#6).toNat ∧ 0x20 ≤ (0x3C#6).toNat ∧ (0x3C#6).toNat % 4 = 0 ∧
    (machineWith busyCore [.bus (.read 0x3C .word)]).pending = .bus (.read 0x3C .word) :: [] := by decide

theorem witness_StatusWriteClearsOnlyDoneAndErr :
    (machineWith busyCore [hostWR .status 6, .complete]).pending = hostWR .status 6 :: [.complete] ∧
    (machineWith busyCore [hostWR .status 6, .complete]).rst = false ∧ busyCore.busy = true := by decide

/-- A rejection that follows the STATUS write: a DATA write while BUSY, and a transform without a key. -/
theorem witness_StatusWriteClearsOnlyDoneAndErr_rejected :
    (∃ t, step (machineWith busyCore [hostWR .status 6, hostWR (.data 7) 1]) = .next t ∧ FailsACheck t) ∧
    ∃ t, step (machineWith TeaCore.reset [hostWR .status 6, cmdWrite 0x004]) = .next t ∧ FailsACheck t :=
  ⟨⟨_, rfl, rfl, .inr ⟨rfl, 7, 1, [], rfl⟩⟩,
    _, rfl, rfl, .inl ⟨0x004, [], rfl, .inr (.inr (.inr ⟨⟨.enc4, witness_isTransform.1, by decide⟩, rfl⟩))⟩⟩

theorem witness_CtrlIsWrittenAndReadBack :
    (machineWith busyCore [hostWR .ctrl 3]).rst = false ∧
    (machineWith busyCore [hostWR .ctrl 3]).pending = hostWR .ctrl 3 :: [] ∧
    (machineWith busyCore [hostRD .ctrl]).pending = hostRD .ctrl :: [] := by decide

/-- The last staging word, and bytes just outside it. -/
theorem witness_KeyInWriteStagesFourBytes :
    (machineWith busyCore [hostWR (.keyIn 3) 1]).pending = hostWR (.keyIn 3) 1 :: [] ∧
    (machineWith busyCore [hostRD (.keyIn 3)]).pending = hostRD (.keyIn 3) :: [] ∧
    11 < 4 * (3#2).toNat ∧ 4 * (2#2).toNat + 4 ≤ 12 ∧ 3 < 4 := by decide

theorem witness_ReservedOffsetReadsZeroIgnoresWrites :
    (machineWith busyCore [.bus (.read 0x0C .word)]).pending = .bus (.read 0x0C .word) :: [] ∧
    (machineWith busyCore [.bus (.write 0x0C .word 1)]).pending = .bus (.write 0x0C .word 1) :: [] ∧
    (machineWith busyCore [.bus (.read 0x0C .word)]).rst = false := by decide

theorem witness_DataRegisterReadAndWrite :
    (machineWith busyCore [hostRD (.data 7)]).pending = hostRD (.data 7) :: [] ∧
    (machineWith busyCore [hostWR (.data 7) 1]).core.busy = true ∧
    (machineWith keyedCore [hostWR (.data 7) 1]).core.busy = false ∧
    (machineWith keyedCore [hostWR (.data 7) 1]).pending = hostWR (.data 7) 1 :: [] ∧
    27 < 4 * (7#3).toNat ∧ 4 * (7#3).toNat + 4 ≤ 32 := by decide

theorem witness_BusWordIsTheByteSwappedCipherWord : keyedCore.busy = false := by decide

theorem witness_ReadsAndRepeatedWritesHaveNoFurtherEffect :
    (∃ t, step (machineWith busyCore [hostRD .status]) = .next t) ∧ stagedCore.keybuf.wf keybufBytes = true ∧
    dataCore.dbuf.wf dbufBytes = true ∧ dataCore.busy = false := ⟨⟨_, rfl⟩, by decide, by decide, by decide⟩

theorem witness_InterruptOutputIsALevel :
    (0#32).getLsbD 0 = false ∧ (0#32).getLsbD 1 = false ∧ ({ keyedCore with done := true, ieDone := true }).irq = true := by
  decide

theorem witness_TransactionGoesBeforeCompletion :
    (machineWith busyCore [cmdWrite 4, .complete]).rst = false ∧ busyCore.busy = true ∧
    (machineWith busyCore [cmdWrite 4, .complete]).pending = .bus (.write Reg.cmd.offset .word 4) :: .complete :: [] ∧
    Event.bus (.write (Reg.data 7).offset .word 4) = hostWR (.data 7) 4 ∧
    Event.bus (.read (Reg.data 0).offset .word) = hostRD (.data 0) := by decide

theorem witness_WritesWhileBusy :
    (machineWith busyCore [cmdWrite 4]).rst = false ∧ busyCore.busy = true ∧
    (machineWith busyCore [cmdWrite 4]).pending = cmdWrite 4 :: [] ∧
    (machineWith busyCore [hostWR (.data 0) 4]).pending = hostWR (.data 0) 4 :: [] ∧
    (machineWith busyCore [hostWR .status 4]).pending = hostWR .status 4 :: [] ∧
    (machineWith busyCore [hostWR .ctrl 4]).pending = hostWR .ctrl 4 :: [] ∧
    (machineWith busyCore [hostWR (.keyIn 0) 4]).pending = hostWR (.keyIn 0) 4 :: [] := by decide

theorem witness_KeyMustBeStagedAgain :
    stagedCore.busy = false ∧ stagedCore.keyinWr = 15#4 ∧
    ∃ t, exec (.ldkey Variant.tea16.code) (machineWith stagedCore []) = .next t := ⟨by decide, by decide, _, rfl⟩

/-- The four words in another order with one repeat, and three of them. -/
theorem witness_KeyMustBeStagedAgain_writes :
    (∀ i : BitVec 2, ∃ w : Word, (i, w) ∈ [(3#2, 9#32), (1, 8), (3, 7), (0, 6), (2, 5)]) ∧
    ∀ w : Word, (1#2, w) ∉ [(3#2, 9#32), (0, 6), (2, 5)] := by
  refine ⟨fun i => ?_, fun w h => by simp at h⟩
  rcases bitVec2_cases i with rfl | rfl | rfl | rfl
  · exact ⟨6, by decide⟩
  · exact ⟨8, by decide⟩
  · exact ⟨5, by decide⟩
  · exact ⟨9, by decide⟩

/-- A read that the plain signals carry, and an idle bus. -/
theorem witness_EveryBusBindingCarriesTheTransactions :
    State.reset.rst = false ∧ State.reset.pending = [] ∧
    ({ : BusBinding }).request (.read 0x3C .word) = ({ : BusBinding }).request (.read 0x3C .word) ∧
    ({ : BusBinding }).accept [] = none := by decide

/-- Two cores that look the same to the host and hold different keys. -/
theorem witness_TransactionsRevealNothingOfTheKey :
    keyedCore.SameView { keyedCore with k := ⟨1, 2, 3, 4⟩ } ∧ keyedCore.k ≠ ⟨1, 2, 3, 4⟩ ∧
    (∃ t, step (machineWith keyedCore [cmdWrite 4]) = .next t) ∧
    ∃ t, step (machineWith { keyedCore with k := ⟨1, 2, 3, 4⟩ } [cmdWrite 4]) = .next t :=
  ⟨⟨rfl, rfl, rfl, fun _ _ => rfl, rfl, rfl, rfl, rfl, rfl, rfl⟩, by decide, ⟨_, rfl⟩, _, rfl⟩

/-- The first and the last address of the window, and the first beyond it. -/
theorem witness_WindowDecodesAddresses :
    (Config.base ≤ Config.base ∧ Config.base < Config.base + 64) ∧
    (Config.base ≤ Config.base + 63 ∧ Config.base + 63 < Config.base + 64) ∧
    Config.base + 64 ≤ Config.base + 64 := by omega

theorem witness_ResetSetsAndHoldsTheResetValues :
    (machineWith busyCore [.rst true]).pending = .rst true :: [] ∧
    ({ State.reset with rst := true }).core.HoldsResetValues :=
  ⟨rfl, ⟨Words4.get_zero, rfl, rfl, fun _ => rfl, rfl, fun _ => rfl, rfl, rfl, rfl, rfl, rfl, rfl, rfl⟩⟩

theorem witness_NoTransactionIsTakenInReset :
    ({ State.reset with rst := true, pending := [cmdWrite 4] }).rst = true ∧
    ({ State.reset with rst := true, pending := [cmdWrite 4] }).pending =
      .bus (.write Reg.cmd.offset .word 4) :: [] := by decide

theorem witness_FirstAcceptedCommandIsLdkey :
    TeaCore.reset.busy = false ∧ TeaCore.reset.keyValid = false ∧ TeaCore.reset.keyinWr ≠ 15#4 ∧
    ∃ t, exec (.ldkey 0) (machineWith stagedCore []) = .next t ∧ t.core.keyValid = true :=
  ⟨by decide, by decide, by decide, _, rfl, by decide⟩

theorem witness_EveryRunComesToRest :
    (machineWith busyCore [.tick, cmdWrite 4]).rst = true → (machineWith busyCore [.tick, cmdWrite 4]).core.seq = .idle := by
  decide

end Sys2Proof.Tests
end

section
/-! Proof of O49: whatever BUS_BINDING is, the port gets the transaction and the master the response (R7, R40). -/

namespace Sys2Proof.Machine

/-- With rst released, the step that handles a transaction answers exactly its response (R40). -/
theorem step_bus {s : State} {t : Transaction} {rest : List Event} (hr : s.rst = false)
    (hp : s.pending = .bus t :: rest) :
    ∃ u, step s = .next u ∧ SamePorts ((s.popped rest).respond (t.response s.core)) u := by
  have handled : step s = busTransaction t (s.popped rest) := by simp [step_event hp, handleEvent, hr]
  rw [handled]
  exact busTransaction_next t (s.popped rest)

/-- A binding tells transactions apart, in size too: its `accept` undoes its `request`. -/
theorem BusBinding.request_injective (b : BusBinding) : Function.Injective b.request := fun t t' h =>
  Option.some.inj (by rw [← b.accept_request t, ← b.accept_request t', h])

/-- A binding tells responses apart, in err too: its `readBack` undoes its `answer`. -/
theorem BusBinding.answer_injective (b : BusBinding) : Function.Injective b.answer := fun r r' h =>
  Option.some.inj (by rw [← b.readBack_answer r, ← b.readBack_answer r', h])

/-- Under the same surroundings the port has answered with the same signals. -/
theorem SamePorts.answers {s t : State} (h : SamePorts s t) (b : BusBinding) : t.answers b = s.answers b := by
  simp [State.answers, h.responses]

/-- A transaction transferred to a port at rest is answered by the next step, with the signals of its response. -/
theorem step_transfer_request (b : BusBinding) {s : State} (t : Transaction) (hr : s.rst = false)
    (hp : s.pending = []) :
    ∃ u, step (s.transfer b (b.request t)) = .next u ∧ u.pending = [] ∧
      u.answers b = b.answer (t.response s.core) :: s.answers b := by
  have arrived : (s.transfer b (b.request t)).pending = .bus t :: [] := by simp [hp]
  obtain ⟨u, hu, ports⟩ := step_bus (by simpa using hr) arrived
  refine ⟨u, hu, ports.pending, ?_⟩
  rw [ports.answers b, State.answers_respond]
  simp [State.answers]

/-- Settles O49: the binding's `accept` and `readBack` undo its `request` and `answer`, and the step that handles the
transferred transaction answers it. -/
theorem everyBusBindingCarriesTheTransactions : Obligations.EveryBusBindingCarriesTheTransactions := by
  intro b s
  refine ⟨fun t => s.transfer_request b t, fun t hr hp => ?_, fun _ _ h => b.request_injective h,
    fun _ _ h => b.answer_injective h, fun _ h => State.transfer_idle h s⟩
  obtain ⟨u, hu, quiet, answered⟩ := step_transfer_request b t hr hp
  exact ⟨u, b.answer (t.response s.core), hu, quiet, answered, b.readBack_answer _⟩

end Sys2Proof.Machine
end

section
/-! The register writes, rules that later proofs cite: the DATA write in its two cases (R36), what one KEY_IN write does
to the staged bits (R34), and four bytes stored as a bus word (R43). -/

namespace Sys2Proof.Machine

theorem TeaCore.writeData_of_idle {c : TeaCore} (j : BitVec 3) (w : Word) (hb : c.busy = false) :
    c.writeData j w = { c with dbuf := c.dbuf.writeLanes (4 * j.toNat) w } := by
  simp [TeaCore.writeData, hb]

theorem TeaCore.writeData_of_busy {c : TeaCore} (j : BitVec 3) (w : Word) (hb : c.busy = true) :
    c.writeData j w = c.reject .busy := by
  simp [TeaCore.writeData, hb]

/-- A KEY_IN write sets bit i of KEYIN_WR and leaves the other three. -/
theorem TeaCore.getLsbD_writeKeyIn_keyinWr (c : TeaCore) (i : BitVec 2) (w : Word) {j : Nat} (hj : j < 4) :
    (c.writeKeyIn i w).keyinWr.getLsbD j = (c.keyinWr.getLsbD j || decide (j = i.toNat)) := by
  have bit : (1#4 <<< i.toNat).getLsbD j = decide (j = i.toNat) := by
    rw [BitVec.getLsbD_shiftLeft, BitVec.getLsbD_one]
    simp only [hj, decide_true, Bool.true_and]
    grind
  rw [TeaCore.writeKeyIn_keyinWr, BitVec.getLsbD_or, bit]

/-- Byte lane b of a stored bus word stands at byte b of its four. -/
theorem Memory.read_writeLanes_inside (m : Memory) (a : Nat) (w : Word) {b : Nat} (hb : b < 4) :
    (m.writeLanes a w).read (a + b) = lane w b := by
  rw [Memory.read_writeLanes]
  interval_cases b <;> simp

theorem Memory.read_writeLanes_outside (m : Memory) (a : Nat) (w : Word) {n : Nat} (hn : n < a ∨ a + 4 ≤ n) :
    (m.writeLanes a w).read n = m.read n := by
  rw [Memory.read_writeLanes, if_neg (by omega), if_neg (by omega), if_neg (by omega), if_neg (by omega)]

/-- The four bytes of a KEY_IN register are inside KEYBUF. -/
theorem keyIn_in_keybuf (i : BitVec 2) : 4 * i.toNat + 3 < keybufBytes := by
  have := bitVec2_toNat_lt i
  simp only [keybufBytes]
  omega

/-- The four bytes of a DATA register are inside DBUF. -/
theorem data_in_dbuf (j : BitVec 3) : 4 * j.toNat + 3 < dbufBytes := by
  have := bitVec3_toNat_lt j
  simp only [dbufBytes]
  omega

end Sys2Proof.Machine
end

section
/-! The invariant of the core: it holds at reset, and every `CoreMove` keeps it (R39, R86, R120). One lemma per update. -/

namespace Sys2Proof.Machine

theorem RejectCause.code_ne_zero (e : RejectCause) : e.code ≠ 0 := by cases e <;> decide

theorem RejectCause.code_le_four (e : RejectCause) : e.code.toNat ≤ 4 := by cases e <;> decide

theorem Variant.rounds_le (v : Variant) : v.rounds ≤ 64 := by cases v <;> decide

theorem freeRoundCount_le (n : Nat) : (freeRoundCount n).toNat ≤ 64 := by
  simp only [freeRoundCount, BitVec.toNat_ofNat]
  omega

/-- The lane invariant speaks of a command in flight only. -/
theorem TeaCore.lanesFollowRounds_of_idle {c : TeaCore} (h : c.seq = .idle) : c.LanesFollowRounds := by
  intro op sel hs
  rw [h] at hs
  cases hs

/-- At acceptance the active lanes hold their blocks, and no round is done (R86). -/
theorem TeaCore.lanesFollowRounds_accept (c : TeaCore) (op : TransformOp) (sel : BitVec 2) :
    (c.accept op sel).LanesFollowRounds := by
  intro op' sel' hs
  obtain ⟨rfl, rfl⟩ : op = op' ∧ sel = sel' := by simpa using hs
  refine ⟨Nat.zero_le _, fun i hi => ?_⟩
  have start : pairRounds op c.k 0 (pairStart op c i) = pairStart op c i := by
    cases op <;> rfl
  simpa [get_activeLanes, hi, deinterleave, pairStart, loadBlock] using start

/-- A round step does one more round on each active lane (R86). -/
theorem TeaCore.lanesFollowRounds_roundStep {c : TeaCore} {op : TransformOp} {sel : BitVec 2}
    (h : c.LanesFollowRounds) (hs : c.seq = .busy op sel) (hr : c.rcnt.toNat < c.variant.rounds) :
    (c.roundStep op sel).LanesFollowRounds := by
  intro op' sel' hs'
  obtain ⟨rfl, rfl⟩ : op = op' ∧ sel = sel' := by simpa [hs] using hs'
  have count : (c.rcnt + 1).toNat = c.rcnt.toNat + 1 := by
    have := c.variant.rounds_le
    rw [BitVec.toNat_add]
    exact Nat.mod_eq_of_lt (by simpa using by omega)
  refine ⟨by rwa [TeaCore.roundStep_rcnt, count], fun i hi => ?_⟩
  have before := (h op sel hs).2 i hi
  have round := pair_laneRound op c.k ⟨c.sum, c.x, c.y⟩ i
  simp only [LaneState.pair, ← before] at round
  simp only [TeaCore.roundStep_k, TeaCore.roundStep_rcnt, TeaCore.roundStep_sum, TeaCore.roundStep_x,
    TeaCore.roundStep_y, get_activeLanes, hi, if_true, count, pairRounds_succ_last, round]
  rfl

theorem TeaCore.inv_reset : TeaCore.reset.Inv where
  dbufWf := rfl
  keybufWf := rfl
  noKeyIsZero _ := rfl
  busyHasKey := nofun
  busyNotDone := nofun
  fourBlockSelZero := nofun
  errcodeAtMostFour := by decide
  errIffCode := by decide
  unstagedZero i _ := Memory.readLanes_zero (4 * i.toNat)
  rcntInRange := by decide
  lanes := TeaCore.lanesFollowRounds_of_idle rfl

section Moves

variable {c : TeaCore} (h : c.Inv)
include h

theorem TeaCore.Inv.reject (e : RejectCause) : (c.reject e).Inv :=
  { h with
    errcodeAtMostFour := e.code_le_four
    errIffCode := by simpa using e.code_ne_zero }

theorem TeaCore.Inv.writeStatus (w : Word) : (c.writeStatus w).Inv :=
  { h with
    busyNotDone := fun hb => by simp [h.busyNotDone hb]
    errcodeAtMostFour := by
      have := h.errcodeAtMostFour
      rw [TeaCore.writeStatus_errcode]
      split <;> simp [this]
    errIffCode := by
      have := h.errIffCode
      rw [TeaCore.writeStatus_err, TeaCore.writeStatus_errcode]
      split <;> simp_all }

theorem TeaCore.Inv.writeCtrl (w : Word) : (c.writeCtrl w).Inv := { h with }

/-- The written register's bit is set, and the other registers' bytes are as they were. -/
theorem TeaCore.Inv.writeKeyIn (i : BitVec 2) (w : Word) : (c.writeKeyIn i w).Inv :=
  { h with
    keybufWf := Memory.wf_writeLanes w (keyIn_in_keybuf i) h.keybufWf
    unstagedZero := fun j hj => by
      rw [TeaCore.getLsbD_writeKeyIn_keyinWr c i w j.isLt, Bool.or_eq_false_iff, decide_eq_false_iff_not] at hj
      obtain ⟨clear, other⟩ := hj
      rw [TeaCore.writeKeyIn_keybuf, Memory.readLanes_writeLanes_other _ _ (by omega)]
      exact h.unstagedZero j clear }

theorem TeaCore.Inv.storeData (j : BitVec 3) (w : Word) (hb : c.busy = false) :
    TeaCore.Inv { c with dbuf := c.dbuf.writeLanes (4 * j.toNat) w } :=
  { h with
    dbufWf := Memory.wf_writeLanes w (data_in_dbuf j) h.dbufWf
    lanes := TeaCore.lanesFollowRounds_of_idle (TeaCore.busy_eq_false.1 hb) }

theorem TeaCore.Inv.loadKey (v : Variant) (hb : c.busy = false) : (c.loadKey v).Inv :=
  { h with
    keybufWf := rfl
    noKeyIsZero := nofun
    busyHasKey := fun _ => rfl
    busyNotDone := fun hb' => by simp [hb] at hb'
    unstagedZero := fun i _ => Memory.readLanes_zero (4 * i.toNat)
    lanes := TeaCore.lanesFollowRounds_of_idle (TeaCore.busy_eq_false.1 hb) }

theorem TeaCore.Inv.accept (op : TransformOp) (sel : BitVec 2) (hk : c.keyValid = true)
    (h0 : op = .enc4 ∨ op = .dec4 → sel = 0) : (c.accept op sel).Inv :=
  { h with
    busyHasKey := fun _ => hk
    busyNotDone := fun _ => rfl
    fourBlockSelZero := fun op' sel' hs => by
      obtain ⟨rfl, rfl⟩ : op = op' ∧ sel = sel' := by simpa using hs
      exact h0
    rcntInRange := Nat.zero_le _
    lanes := c.lanesFollowRounds_accept op sel }

theorem TeaCore.Inv.roundStep {op : TransformOp} {sel : BitVec 2} (hs : c.seq = .busy op sel)
    (hr : c.rcnt.toNat < c.variant.rounds) : (c.roundStep op sel).Inv :=
  have lanes := TeaCore.lanesFollowRounds_roundStep h.lanes hs hr
  { h with
    rcntInRange := (lanes op sel hs).1.trans c.variant.rounds_le
    lanes := lanes }

theorem TeaCore.Inv.finish (n : Nat) (op : TransformOp) (sel : BitVec 2) : (c.finish n op sel).Inv :=
  { h with
    dbufWf := wf_transformResult op sel h.dbufWf
    busyHasKey := nofun
    busyNotDone := nofun
    fourBlockSelZero := nofun
    rcntInRange := freeRoundCount_le n
    lanes := TeaCore.lanesFollowRounds_of_idle rfl }

end Moves

/-- Everything that can happen to the core keeps its invariant. -/
theorem CoreMove.keeps_inv {c d : TeaCore} (h : CoreMove c d) (hi : c.Inv) : d.Inv := by
  cases h with
  | stay => exact hi
  | reject e => exact hi.reject e
  | status w => exact hi.writeStatus w
  | ctrl w => exact hi.writeCtrl w
  | keyIn i w => exact hi.writeKeyIn i w
  | data j w hb => exact hi.storeData j w hb
  | loadKey v hb _ => exact hi.loadKey v hb
  | accept op sel _ hk h0 => exact hi.accept op sel hk h0
  | round op sel hs hr => exact hi.roundStep hs hr
  | finish n op sel _ => exact hi.finish n op sel
  | reset => exact TeaCore.inv_reset

end Sys2Proof.Machine
end

section
/-! The reset input (R38, R140): only its own events move it, and while it is asserted a step leaves the core or sets the
reset values again. -/

namespace Sys2Proof.Machine

@[simp] theorem State.complete_rst (s : State) : s.complete.rst = s.rst := by
  unfold State.complete
  split <;> rfl

@[simp] theorem State.tick_rst (s : State) : s.tick.rst = s.rst := by
  unfold State.tick
  split
  · rfl
  · split
    · rfl
    · exact s.complete_rst

@[simp] theorem quietStep_rst (s : State) : (quietStep s).rst = s.rst := by
  unfold quietStep
  split
  · rfl
  · exact s.complete_rst

/-- A change of the reset input is taken in one step (R140). -/
theorem step_setRst {s : State} {b : Bool} {rest : List Event} (hp : s.pending = .rst b :: rest) :
    step s = .next ((s.popped rest).setRst b) :=
  step_event hp

/-- A transaction leaves the reset input as it is. -/
theorem handleEvent_bus_rst {t : Transaction} {s s' : State} (h : handleEvent (.bus t) s = .next s') :
    s'.rst = s.rst := by
  simp only [handleEvent] at h
  split at h
  · cases h; rfl
  · obtain ⟨u, hu, ports⟩ := busTransaction_next t s
    obtain rfl : u = s' := by simpa [hu] using h
    exact ports.rst

/-- Only an event of the reset input moves it. -/
theorem step_rst {s t : State} (h : step s = .next t) :
    t.rst = s.rst ∨ ∃ b rest, s.pending = .rst b :: rest := by
  unfold step at h
  split at h
  · cases h
    exact .inl (quietStep_rst s)
  · rename_i e rest hp
    cases e with
    | bus tr => exact .inl (handleEvent_bus_rst h : t.rst = (s.popped rest).rst)
    | tick =>
      cases h
      left
      split <;> simp
    | complete =>
      cases h
      left
      split <;> simp
    | rst b => exact .inr ⟨b, rest, hp⟩

/-- While rst is asserted a step leaves the core as it is or sets the reset values (R140). -/
theorem step_core_in_reset {s t : State} (h : step s = .next t) (hr : s.rst = true) :
    t.core = s.core ∨ t.core = TeaCore.reset := by
  rcases step_cases h with hc | ⟨hc, -⟩ | ⟨released, -⟩ | ⟨released, -⟩
  · exact .inl hc
  · exact .inr hc
  · simp [hr] at released
  · simp [hr] at released

/-- Settles O23: the core's invariant holds at reset, and rst is released there. -/
theorem invariantHoldsAtReset : Obligations.InvariantHoldsAtReset := fun _ =>
  ⟨TeaCore.inv_reset, nofun⟩

/-- Settles O24: every move of the core keeps its invariant; and where rst is asserted after the step, either it was
before, so that the core had its reset values and keeps them, or the step asserted it. -/
theorem everyStepKeepsTheInvariant : Obligations.EveryStepKeepsTheInvariant := by
  intro s t hi h
  refine ⟨(step_move h).keeps_inv hi.core, fun asserted => ?_⟩
  rcases step_rst h with same | ⟨b, rest, hp⟩
  · have hr : s.rst = true := same.symm.trans asserted
    rcases step_core_in_reset h hr with hc | hc
    · exact hc.trans (hi.heldInReset hr)
    · exact hc
  · rw [step_setRst hp] at h
    cases h
    obtain rfl : b = true := asserted
    rfl

end Sys2Proof.Machine
end

section
/-! Reset sets the values of R38 and holds them (R140). -/

namespace Sys2Proof.Machine

/-- Every event is handled: nothing at the core faults or refuses (R123). -/
theorem handleEvent_next (e : Event) (s : State) : ∃ t, handleEvent e s = .next t := by
  cases e with
  | bus tr =>
    simp only [handleEvent]
    split
    · exact ⟨_, rfl⟩
    · exact (busTransaction_next tr s).imp fun _ h => h.1
  | tick => exact ⟨_, rfl⟩
  | complete => exact ⟨_, rfl⟩
  | rst b => exact ⟨_, rfl⟩

theorem step_next (s : State) : ∃ t, step s = .next t := by
  unfold step
  split
  · exact ⟨_, rfl⟩
  · exact handleEvent_next _ _

theorem TeaCore.reset_holdsResetValues : TeaCore.reset.HoldsResetValues where
  keyZero := Words4.get_zero
  keyInvalid := rfl
  variantZero := rfl
  keybufZero := Memory.read_zero
  nothingStaged := rfl
  dbufZero := Memory.read_zero
  seqIdle := rfl
  doneClear := rfl
  errClear := rfl
  errcodeNone := rfl
  ieDoneClear := rfl
  ieErrClear := rfl
  irqLow := rfl

/-- Settles O45: the assertion of rst puts the reset core in place, and a step while rst is asserted leaves the core or
puts the reset core in place again. -/
theorem resetSetsAndHoldsTheResetValues : Obligations.ResetSetsAndHoldsTheResetValues := by
  refine ⟨TeaCore.reset_holdsResetValues,
    fun s rest hp => ⟨_, step_setRst hp, rfl, TeaCore.reset_holdsResetValues⟩, fun s hr held => ?_⟩
  obtain ⟨t, h⟩ := step_next s
  refine ⟨t, h, ?_⟩
  rcases step_core_in_reset h hr with hc | hc
  · rwa [hc]
  · rw [hc]
    exact TeaCore.reset_holdsResetValues

end Sys2Proof.Machine
end

section
/-! The moves of the core with the events that cause them, and what R20's column "written by" says of the fields. -/

namespace Sys2Proof.Machine

/-- What a CMD write can do (R90): be rejected, load the key for an LDKEY word, or accept a transform. -/
theorem handleCmd_cases (w : Word) (s : State) :
    (∃ e, handleCmd w s = .next (s.reject e)) ∨
    (s.core.busy = false ∧ s.core.keyinWr = 15#4 ∧ ∃ v : Variant, decode w = .command (.ldkey v.code) ∧
      handleCmd w s = .next { s with core := s.core.loadKey v }) ∨
    (s.core.busy = false ∧ ∃ op sel, handleCmd w s = .next { s with core := s.core.accept op sel }) := by
  unfold handleCmd
  split
  · exact .inl ⟨_, rfl⟩
  · split
    · exact .inl ⟨_, rfl⟩
    · rename_i i hd
      rcases exec_cases i s with rejected | ⟨hb, hk, v, rfl, he⟩ | ⟨hb, -, op, sel, -, he⟩
      · exact .inl rejected
      · exact .inr (.inl ⟨hb, hk, v, hd, he⟩)
      · exact .inr (.inr ⟨hb, op, sel, he⟩)

/-- `CoreMove` seen from the machine: every move of the core that one step of `s` can make, with the event or the
condition that causes it. A rejection is kept without its cause. -/
inductive StepMove (s : State) : TeaCore → Prop where
  | stay : StepMove s s.core
  | reject (e : RejectCause) : StepMove s (s.core.reject e)
  | status (w : Word) (rest : List Event) (hr : s.rst = false) (hp : s.pending = hostWR .status w :: rest) :
      StepMove s (s.core.writeStatus w)
  | ctrl (w : Word) (rest : List Event) (hr : s.rst = false) (hp : s.pending = hostWR .ctrl w :: rest) :
      StepMove s (s.core.writeCtrl w)
  | keyIn (i : BitVec 2) (w : Word) (rest : List Event) (hr : s.rst = false)
      (hp : s.pending = hostWR (.keyIn i) w :: rest) : StepMove s (s.core.writeKeyIn i w)
  | data (j : BitVec 3) (w : Word) (rest : List Event) (hr : s.rst = false) (hb : s.core.busy = false)
      (hp : s.pending = hostWR (.data j) w :: rest) :
      StepMove s { s.core with dbuf := s.core.dbuf.writeLanes (4 * j.toNat) w }
  | loadKey (v : Variant) (ha : AcceptsLdkey s) : StepMove s (s.core.loadKey v)
  | accept (op : TransformOp) (sel : BitVec 2) (hb : s.core.busy = false) : StepMove s (s.core.accept op sel)
  | round (op : TransformOp) (sel : BitVec 2) (hb : s.core.busy = true) : StepMove s (s.core.roundStep op sel)
  | finish (n : Nat) (op : TransformOp) (sel : BitVec 2) (hb : s.core.busy = true) :
      StepMove s (s.core.finish n op sel)
  | reset (he : EntersReset s) : StepMove s TeaCore.reset

/-- A register write makes the move of its register (R30 to R36). -/
theorem regWrite_stepMove {r : Reg} {w : Word} {rest : List Event} {s t : State} (hr : s.rst = false)
    (hp : s.pending = hostWR r w :: rest)
    (h : r.write w ((s.popped rest).respond (.write false)) = .next t) : StepMove s t.core := by
  cases r with
  | cmd =>
    rcases handleCmd_cases w ((s.popped rest).respond (.write false)) with
      ⟨e, he⟩ | ⟨hb, hk, v, hd, he⟩ | ⟨hb, op, sel, he⟩ <;> cases he.symm.trans h
    · exact .reject e
    · exact .loadKey v ⟨hr, hb, hk, w, v.code, rest, hp, hd⟩
    · exact .accept op sel hb
  | status => cases h; exact .status w rest hr hp
  | ctrl => cases h; exact .ctrl w rest hr hp
  | reserved => cases h; exact .stay
  | keyIn i => cases h; exact .keyIn i w rest hr hp
  | data j =>
    cases h
    cases hb : s.core.busy with
    | false =>
      simp only [State.respond_core, State.popped_core, TeaCore.writeData_of_idle j w hb]
      exact .data j w rest hr hb hp
    | true =>
      simp only [State.respond_core, State.popped_core, TeaCore.writeData_of_busy j w hb]
      exact .reject .busy

theorem step_stepMove {s t : State} (h : step s = .next t) : StepMove s t.core := by
  rcases step_cases h with hc | ⟨hc, he⟩ | ⟨hr, r, w, rest, hp, hw⟩ | ⟨-, op, sel, hs, hc | ⟨n, hc⟩⟩
  · exact hc ▸ .stay
  · exact hc ▸ .reset he
  · exact regWrite_stepMove hr hp hw
  · exact hc ▸ .round op sel (TeaCore.busy_eq_true.2 ⟨op, sel, hs⟩)
  · exact hc ▸ .finish n op sel (TeaCore.busy_eq_true.2 ⟨op, sel, hs⟩)

/-- R20, R22: LDKEY and reset write the key, no other move does. -/
theorem StepMove.key_changes {s : State} {d : TeaCore} (h : StepMove s d)
    (hne : d.k ≠ s.core.k ∨ d.keyValid ≠ s.core.keyValid ∨ d.variant ≠ s.core.variant) :
    AcceptsLdkey s ∨ EntersReset s := by
  cases h with
  | loadKey v ha => exact .inl ha
  | reset he => exact .inr he
  | _ => simp at hne

/-- R20: a DATA write taken while IDLE, completion and reset write DBUF, no other move does. -/
theorem StepMove.dbuf_changes {s : State} {d : TeaCore} (h : StepMove s d) (hne : d.dbuf ≠ s.core.dbuf) :
    (s.rst = false ∧ s.core.busy = false ∧ ∃ j w rest, s.pending = hostWR (.data j) w :: rest) ∨
    (s.core.busy = true ∧ d.busy = false) ∨ EntersReset s := by
  cases h with
  | data j w rest hr hb hp => exact .inl ⟨hr, hb, j, w, rest, hp⟩
  | finish n op sel hb => exact .inr (.inl ⟨hb, rfl⟩)
  | reset he => exact .inr (.inr he)
  | _ => simp at hne

/-- R20: a KEY_IN write, LDKEY and reset write KEYBUF and KEYIN_WR, no other move does. -/
theorem StepMove.staging_changes {s : State} {d : TeaCore} (h : StepMove s d)
    (hne : d.keybuf ≠ s.core.keybuf ∨ d.keyinWr ≠ s.core.keyinWr) :
    (s.rst = false ∧ ∃ i w rest, s.pending = hostWR (.keyIn i) w :: rest) ∨ AcceptsLdkey s ∨ EntersReset s := by
  cases h with
  | keyIn i w rest hr hp => exact .inl ⟨hr, i, w, rest, hp⟩
  | loadKey v ha => exact .inr (.inl ha)
  | reset he => exact .inr (.inr he)
  | _ => simp at hne

/-- R20: a CTRL write and reset write the enables, no other move does. -/
theorem StepMove.enables_change {s : State} {d : TeaCore} (h : StepMove s d)
    (hne : d.ieDone ≠ s.core.ieDone ∨ d.ieErr ≠ s.core.ieErr) :
    (s.rst = false ∧ ∃ w rest, s.pending = hostWR .ctrl w :: rest) ∨ EntersReset s := by
  cases h with
  | ctrl w rest hr hp => exact .inl ⟨hr, w, rest, hp⟩
  | reset he => exact .inr he
  | _ => simp at hne

/-- Settles O26: of the moves one step can make, the two that write the key are LDKEY's and reset's. -/
theorem onlyLdkeyAndResetWriteTheKey : Obligations.OnlyLdkeyAndResetWriteTheKey :=
  fun _ _ h hne => (step_stepMove h).key_changes hne

/-- Settles O27: one clause for DBUF, one for the staging and one for the enables, over the moves one step can make. -/
theorem onlyListedEventsWriteTheBuffers : Obligations.OnlyListedEventsWriteTheBuffers := fun _ _ h =>
  have move := step_stepMove h
  ⟨move.dbuf_changes, move.staging_changes, move.enables_change⟩

end Sys2Proof.Machine
end

section
/-! The invariants of the reachable states, and the operands of a command in flight (R39). -/

namespace Sys2Proof.Machine

/-- The invariant holds at reset and every step keeps it, so it holds of every reachable state. -/
theorem Reachable.inv {s : State} (h : Reachable s) : s.Inv := by
  induction h with
  | reset events => exact invariantHoldsAtReset events
  | step _ hs ih => exact everyStepKeepsTheInvariant _ _ ih hs

/-- R24: the code 11 stands for no variant. -/
theorem Variant.code_ne_three (v : Variant) : v.code ≠ 3 := by cases v <;> decide

/-- A move into a BUSY core leaves the operands, and a command in flight stays the same command. The moves that write an
operand (a DATA write, LDKEY, completion, reset) leave the core IDLE. -/
theorem CoreMove.keeps_operands {c d : TeaCore} (h : CoreMove c d) (busy : d.busy = true) :
    d.dbuf = c.dbuf ∧ d.k = c.k ∧ d.variant = c.variant ∧ (c.busy = true → d.seq = c.seq) := by
  have notIdle {P : Prop} (idle : d.busy = false) : P := absurd busy (by simp [idle])
  cases h with
  | data j w hb => exact notIdle hb
  | loadKey v hb _ => exact notIdle hb
  | finish n op sel _ => exact notIdle rfl
  | reset => exact notIdle rfl
  | accept op sel hb _ _ => exact ⟨rfl, rfl, rfl, fun hb' => absurd hb' (by simp [hb])⟩
  | _ => exact ⟨rfl, rfl, rfl, fun _ => rfl⟩

/-- Settles O25: the clause on the key is the invariant's, which every reachable state has, and the moves into a BUSY core
write no operand. -/
theorem reachableStatesKeepOperandsWhileBusy : Obligations.ReachableStatesKeepOperandsWhileBusy := by
  intro s reach
  refine ⟨s.core.variant.code_ne_three, fun noKey j => ?_, fun t h busy => (step_move h).keeps_operands busy⟩
  rw [reach.inv.core.noKeyIsZero noKey]
  exact Words4.get_zero j

end Sys2Proof.Machine
end

section
/-! The registers over the bus: where each stands, what a read returns and what a write leaves (R29 to R36). -/

namespace Sys2Proof.Machine

/-- An offset that is a multiple of 4 is the one of the register it selects (R29, R41). -/
theorem Reg.offset_select_of_aligned {off : BitVec 6} (h : off.toNat % 4 = 0) : (Reg.select off).offset = off :=
  Reg.offset_select (BitVec.eq_of_toNat_eq (by simpa [BitVec.extractLsb'_toNat] using h))

theorem Reg.toNat_offset_keyIn (i : BitVec 2) : (Reg.keyIn i).offset.toNat = 0x10 + 4 * i.toNat := by
  have := bitVec2_toNat_lt i
  simp only [Reg.offset, BitVec.toNat_ofNat]
  omega

theorem Reg.toNat_offset_data (j : BitVec 3) : (Reg.data j).offset.toNat = 0x20 + 4 * j.toNat := by
  have := bitVec3_toNat_lt j
  simp only [Reg.offset, BitVec.toNat_ofNat]
  omega

/-- An aligned 32-bit read returns the register and changes nothing else. -/
theorem step_read {s : State} {r : Reg} {rest : List Event} (hr : s.rst = false) (hp : s.pending = hostRD r :: rest) :
    step s = .next (afterRead s rest (r.read s.core)) :=
  step_hostRD hr hp

/-- Settles O30: an aligned offset is a register's, the read returns that register, and the register's own offset tells
which of the clauses speaks of it. -/
theorem alignedReadsReturnTheRegister : Obligations.AlignedReadsReturnTheRegister := by
  intro s off rest hr hp aligned
  have same := Reg.offset_select_of_aligned aligned
  generalize Reg.select off = r at same
  subst same
  refine ⟨r.read s.core, step_read hr hp, ?_⟩
  cases r with
  | cmd => exact ⟨fun _ => rfl, nofun, nofun, nofun⟩
  | status => exact ⟨nofun, fun _ => rfl, nofun, nofun⟩
  | ctrl => exact ⟨nofun, nofun, fun _ => rfl, nofun⟩
  | reserved => exact ⟨fun _ => rfl, nofun, nofun, nofun⟩
  | keyIn i =>
    have := bitVec2_toNat_lt i
    rw [Reg.toNat_offset_keyIn]
    exact ⟨fun _ => rfl, by omega, by omega, by omega⟩
  | data j =>
    rw [Reg.toNat_offset_data]
    refine ⟨by omega, by omega, by omega, fun _ => ?_⟩
    rw [Nat.add_sub_cancel_left]
    rfl

/-- Settles O31: STATUS is the fields side by side, so a field is what is left after the bits above and below it are
dropped. The first `simp` drops them, the second closes the arithmetic of the places. -/
theorem statusFieldsStandWhereTheTableSays : Obligations.StatusFieldsStandWhereTheTableSays := by
  intro c
  unfold TeaCore.statusWord
  refine ⟨?busy, ?done, ?err, ?keyValid, ?variant, ?bits7to6, ?errcode, ?bits15to12, ?keyinWr, ?bits31to20⟩
  case busy | done | err | keyValid =>
    simp only [BitVec.getLsbD_append, BitVec.getLsbD_ofBool]
    simp
  case variant | bits7to6 | errcode | bits15to12 | keyinWr | bits31to20 =>
    simp (disch := decide) only [BitVec.extractLsb'_append_eq_of_le, BitVec.extractLsb'_append_eq_of_add_le]
    simp

/-- Settles O33: the write and the read of CTRL, and its reset values. -/
theorem ctrlIsWrittenAndReadBack : Obligations.CtrlIsWrittenAndReadBack :=
  ⟨fun _ _ _ hr hp => step_hostWR hr hp, fun _ _ hr hp => step_read hr hp, rfl, rfl⟩

/-- Settles O35: offset 0x0C is the reserved register's, whose read is 0 and whose write does nothing. -/
theorem reservedOffsetReadsZeroIgnoresWrites : Obligations.ReservedOffsetReadsZeroIgnoresWrites :=
  fun s rest hr =>
    ⟨fun hp : s.pending = hostRD .reserved :: rest => step_read hr hp,
      fun w (hp : s.pending = hostWR .reserved w :: rest) => step_hostWR hr hp⟩

/-- Settles O34: the write stages four byte lanes and one bit, the read returns 0. -/
theorem keyInWriteStagesFourBytes : Obligations.KeyInWriteStagesFourBytes := by
  refine ⟨fun s i w rest hr hp => ⟨afterWrite s rest (s.core.writeKeyIn i w), step_hostWR hr hp, rfl, ?_, ?_, ?_⟩,
    fun _ _ _ hr hp => step_read hr hp⟩
  · exact fun b hb => Memory.read_writeLanes_inside _ _ _ hb
  · exact fun n hn => Memory.read_writeLanes_outside _ _ _ hn
  · exact fun j hj => s.core.getLsbD_writeKeyIn_keyinWr i w hj

/-- Settles O36: the read returns the four bytes; the write stores the four byte lanes while IDLE and is rejected while
BUSY. -/
theorem dataRegisterReadAndWrite : Obligations.DataRegisterReadAndWrite := by
  intro s j rest hr
  refine ⟨fun hp => step_read hr hp, fun w hp => ?_⟩
  have written : step s = .next (afterWrite s rest (s.core.writeData j w)) := step_hostWR hr hp
  refine ⟨fun hb => ?_, fun hb => ?_⟩
  · rw [written, TeaCore.writeData_of_busy j w hb]
    rfl
  · rw [TeaCore.writeData_of_idle j w hb] at written
    refine ⟨_, written, rfl, ?_, ?_⟩
    · exact fun b hb => Memory.read_writeLanes_inside _ _ _ hb
    · exact fun a ha => Memory.read_writeLanes_outside _ _ _ ha

end Sys2Proof.Machine
end

section
/-! A STATUS write, and what wins over it when it follows (R32): a completion, and a rejection of any kind. -/

namespace Sys2Proof.Machine

/-- An LDKEY without four staged words is rejected, whatever its variant code (R92). -/
theorem exec_ldkey_rejected {s : State} (var : BitVec 2) (hk : s.core.keyinWr ≠ 15#4) :
    ∃ e, exec (.ldkey var) s = .next (s.reject e) := by
  rcases execLdkey_cases var s with rejected | ⟨-, staged, -⟩
  · exact rejected
  · exact absurd staged hk

theorem acceptTransform_rejected {s : State} (op : TransformOp) (sel : BitVec 2) (hk : s.core.keyValid = false) :
    ∃ e, acceptTransform op sel s = s.reject e := by
  rcases acceptTransform_cases op sel s with rejected | ⟨-, keyed, -⟩
  · exact rejected
  · simp [hk] at keyed

/-- A transform command without a key is rejected (R93 to R96). -/
theorem exec_transform_rejected {s : State} {i : Instr} (hi : isTransform i) (hk : s.core.keyValid = false) :
    ∃ e, exec i s = .next (s.reject e) := by
  have rejected (op : TransformOp) (sel : BitVec 2) :
      ∃ e, (.next (acceptTransform op sel s) : Host.Outcome State Fault Refusal) = .next (s.reject e) :=
    (acceptTransform_rejected op sel hk).imp fun _ h => congrArg _ h
  cases i with
  | ldkey var => exact absurd rfl (hi var)
  | enc1 sel => exact rejected .enc1 sel
  | dec1 sel => exact rejected .dec1 sel
  | enc4 => exact rejected .enc4 0
  | dec4 => exact rejected .dec4 0

theorem handleCmd_of_busy {s : State} (w : Word) (hb : s.core.busy = true) :
    handleCmd w s = .next (s.reject .busy) := by
  simp [handleCmd, hb]

theorem handleCmd_of_illegal {s : State} {w : Word} {why : IllegalReason} (hd : decode w = .illegal why) :
    ∃ e, handleCmd w s = .next (s.reject e) := by
  unfold handleCmd
  split
  · exact ⟨_, rfl⟩
  · rw [hd]
    exact ⟨_, rfl⟩

/-- A legal word is its command's meaning, which has the BUSY check too (log 21). -/
theorem handleCmd_of_command {s : State} {w : Word} {i : Instr} (hd : decode w = .command i) :
    handleCmd w s = exec i s := by
  cases hb : s.core.busy with
  | true => rw [handleCmd_of_busy w hb, exec_busy i hb]
  | false => simp [handleCmd, hb, hd]

/-- A write that fails a check is rejected: the step sets ERR (R12, R90, R36). -/
theorem step_sets_err {s : State} (h : FailsACheck s) : ∃ u, step s = .next u ∧ u.core.err = true := by
  obtain ⟨hr, ⟨w, rest, hp, failed⟩ | ⟨hb, j, w, rest, hp⟩⟩ := h
  · have rejected : ∃ e, handleCmd w ((s.popped rest).respond (.write false)) =
        .next (((s.popped rest).respond (.write false)).reject e) := by
      rcases failed with hb | ⟨why, hd⟩ | ⟨⟨var, hd⟩, hk⟩ | ⟨⟨i, hi, hd⟩, hk⟩
      · exact ⟨_, handleCmd_of_busy w hb⟩
      · exact handleCmd_of_illegal hd
      · rw [handleCmd_of_command hd]
        exact exec_ldkey_rejected var hk
      · rw [handleCmd_of_command hd]
        exact exec_transform_rejected hi hk
    obtain ⟨e, he⟩ := rejected
    exact ⟨_, (step_cmdWrite hr hp).trans he, rfl⟩
  · exact ⟨_, step_hostWR hr hp, by simp [TeaCore.writeData_of_busy j w hb]⟩

/-- A completion of the command in flight sets DONE (R97). -/
theorem step_complete_sets_done {s : State} {rest : List Event} (hr : s.rst = false) (hp : s.pending = .complete :: rest)
    (hb : s.core.busy = true) : ∃ u, step s = .next u ∧ u.core.done = true := by
  obtain ⟨op, sel, hs⟩ := TeaCore.busy_eq_true.1 hb
  refine ⟨(s.popped rest).complete, ?_, ?_⟩
  · simp [step_event hp, handleEvent, hr]
  · simp [State.complete, hs]

/-- Settles O32: the STATUS write is taken BUSY or not; a completion that follows sets DONE again, and a rejection that
follows sets ERR again. -/
theorem statusWriteClearsOnlyDoneAndErr : Obligations.StatusWriteClearsOnlyDoneAndErr := by
  intro s w rest hr hp
  refine ⟨afterWrite s rest (s.core.writeStatus w), step_hostWR hr hp, rfl, fun later hl hb => ?_, step_sets_err⟩
  exact step_complete_sets_done hr hl hb

end Sys2Proof.Machine
end

section
/-! Two cores that look the same to the host: every update keeps them so, and every response is the same (R22, R128,
R132). One lemma per update, then the operations made of them. -/

namespace Sys2Proof.Machine

section Updates

variable {c d : TeaCore} (h : c.SameView d)
include h

theorem TeaCore.SameView.reject (e : RejectCause) : (c.reject e).SameView (d.reject e) :=
  { h with err := rfl, errcode := rfl }

theorem TeaCore.SameView.writeStatus (w : Word) : (c.writeStatus w).SameView (d.writeStatus w) :=
  { h with
    done := by simp [h.done]
    err := by simp [h.err]
    errcode := by simp [h.errcode] }

theorem TeaCore.SameView.writeCtrl (w : Word) : (c.writeCtrl w).SameView (d.writeCtrl w) :=
  { h with ieDone := rfl, ieErr := rfl }

theorem TeaCore.SameView.writeKeyIn (i : BitVec 2) (w : Word) : (c.writeKeyIn i w).SameView (d.writeKeyIn i w) :=
  { h with keyinWr := by simp [h.keyinWr] }

theorem TeaCore.SameView.writeData (j : BitVec 3) (w : Word) : (c.writeData j w).SameView (d.writeData j w) := by
  cases hb : d.busy with
  | true =>
    rw [TeaCore.writeData_of_busy j w hb, TeaCore.writeData_of_busy j w (h.busy.trans hb)]
    exact h.reject .busy
  | false =>
    rw [TeaCore.writeData_of_idle j w hb, TeaCore.writeData_of_idle j w (h.busy.trans hb)]
    exact { h with dbuf := fun a ha => by simp only [Memory.read_writeLanes, h.dbuf a ha] }

/-- The loaded key words may differ: no field of the view is made of them. -/
theorem TeaCore.SameView.loadKey (v : Variant) : (c.loadKey v).SameView (d.loadKey v) :=
  { h with keyValid := rfl, variant := rfl, keyinWr := rfl, done := rfl }

/-- The loaded lanes are no part of the view. -/
theorem TeaCore.SameView.accept (op : TransformOp) (sel : BitVec 2) : (c.accept op sel).SameView (d.accept op sel) :=
  { h with busy := rfl, done := rfl }

theorem TeaCore.SameView.statusWord : c.statusWord = d.statusWord := by
  simp only [TeaCore.statusWord, h.keyinWr, h.errcode, h.variant, h.keyValid, h.err, h.done, h.busy]

theorem TeaCore.SameView.ctrlWord : c.ctrlWord = d.ctrlWord := by
  simp only [TeaCore.ctrlWord, h.ieErr, h.ieDone]

theorem TeaCore.SameView.irq : c.irq = d.irq := by
  simp only [TeaCore.irq, h.done, h.ieDone, h.err, h.ieErr]

/-- No register shows more than the view: K and KEYBUF are behind none of them. -/
theorem TeaCore.SameView.regRead (r : Reg) : r.read c = r.read d := by
  cases r with
  | status => exact h.statusWord
  | ctrl => exact h.ctrlWord
  | data j =>
    have inside := data_in_dbuf j
    simp only [Reg.read, Memory.readLanes]
    rw [h.dbuf _ (by omega), h.dbuf _ (by omega), h.dbuf _ (by omega), h.dbuf _ inside]
  | _ => rfl

theorem TeaCore.SameView.response (t : Transaction) : t.response c = t.response d := by
  cases t with
  | read off size => simp only [Transaction.response, h.regRead]
  | write off size w => rfl

end Updates

/-- Two outcomes whose next states look the same to the host. -/
def SameViewAfter (o p : Host.Outcome State Fault Refusal) : Prop :=
  ∀ s t, o = .next s → p = .next t → s.core.SameView t.core

theorem sameViewAfter_next {s t : State} (h : s.core.SameView t.core) : SameViewAfter (.next s) (.next t) := by
  intro s' t' hs ht
  cases hs
  cases ht
  exact h

section Operations

variable {s t : State} (h : s.core.SameView t.core)
include h

/-- Check 1 of R90 comes out the same on both. -/
theorem whenIdle_sameView {s' t' : State} (h' : s'.core.SameView t'.core) :
    (whenIdle s s').core.SameView (whenIdle t t').core := by
  unfold whenIdle
  rw [h.busy]
  split
  · exact h.reject .busy
  · exact h'

theorem execLdkey_sameView (var : BitVec 2) : SameViewAfter (execLdkey var s) (execLdkey var t) := by
  refine sameViewAfter_next (whenIdle_sameView h ?_)
  cases Variant.ofCode? var with
  | none => exact h.reject .illegal
  | some v =>
    simp only [h.keyinWr]
    split
    · exact h.loadKey v
    · exact h.reject .keyLen

theorem acceptTransform_sameView (op : TransformOp) (sel : BitVec 2) :
    (acceptTransform op sel s).core.SameView (acceptTransform op sel t).core := by
  refine whenIdle_sameView h ?_
  rw [h.keyValid]
  split
  · exact h.accept op sel
  · exact h.reject .noKey

theorem exec_sameView (i : Instr) : SameViewAfter (exec i s) (exec i t) := by
  cases i with
  | ldkey var => exact execLdkey_sameView h var
  | enc1 sel => exact sameViewAfter_next (acceptTransform_sameView h .enc1 sel)
  | dec1 sel => exact sameViewAfter_next (acceptTransform_sameView h .dec1 sel)
  | enc4 => exact sameViewAfter_next (acceptTransform_sameView h .enc4 0)
  | dec4 => exact sameViewAfter_next (acceptTransform_sameView h .dec4 0)

theorem handleCmd_sameView (w : Word) : SameViewAfter (handleCmd w s) (handleCmd w t) := by
  unfold handleCmd
  rw [h.busy]
  split
  · exact sameViewAfter_next (h.reject .busy)
  · cases decode w with
    | illegal why => exact sameViewAfter_next (h.reject .illegal)
    | command i => exact exec_sameView h i

theorem regWrite_sameView (r : Reg) (w : Word) : SameViewAfter (r.write w s) (r.write w t) := by
  cases r with
  | cmd => exact handleCmd_sameView h w
  | status => exact sameViewAfter_next (h.writeStatus w)
  | ctrl => exact sameViewAfter_next (h.writeCtrl w)
  | reserved => exact sameViewAfter_next h
  | keyIn i => exact sameViewAfter_next (h.writeKeyIn i w)
  | data j => exact sameViewAfter_next (h.writeData j w)

theorem busTransaction_sameView (tr : Transaction) :
    SameViewAfter (busTransaction tr s) (busTransaction tr t) := by
  unfold busTransaction
  cases tr with
  | read off size => exact sameViewAfter_next h
  | write off size w =>
    simp only
    split
    · exact sameViewAfter_next h
    · refine regWrite_sameView ?_ (Reg.select off) w
      exact h

end Operations

/-- While rst is asserted a transaction gets the binding's response, which the draw alone decides, and the core stays
(R140). -/
theorem step_bus_in_reset {s : State} {tr : Transaction} {rest : List Event} (hr : s.rst = true)
    (hp : s.pending = .bus tr :: rest) : step s = .next (busInReset tr (s.popped rest)) := by
  simp [step_event hp, handleEvent, hr]

theorem step_bus_released {s : State} {tr : Transaction} {rest : List Event} (hr : s.rst = false)
    (hp : s.pending = .bus tr :: rest) : step s = busTransaction tr (s.popped rest) := by
  simp [step_event hp, handleEvent, hr]

/-- The responses after a transaction that the core takes (R40). -/
theorem step_bus_responses {s u : State} {tr : Transaction} {rest : List Event} (hr : s.rst = false)
    (hp : s.pending = .bus tr :: rest) (h : step s = .next u) : u.responses = tr.response s.core :: s.responses := by
  obtain ⟨u', hu, ports⟩ := step_bus hr hp
  obtain rfl : u' = u := by simpa [hu] using h
  exact ports.responses

/-- Settles O43: the core's response and its next state are made of what the host sees; in reset the response is made of
the draw alone. -/
theorem transactionsRevealNothingOfTheKey : Obligations.TransactionsRevealNothingOfTheKey := by
  refine ⟨fun s t s' t' tr rest view sameRst sameResponses sameDraws hs ht hs' ht' => ?_, fun _ _ h => h.irq⟩
  cases hr : t.rst with
  | true =>
    rw [step_bus_in_reset (sameRst.trans hr) hs] at hs'
    rw [step_bus_in_reset hr ht] at ht'
    cases hs'
    cases ht'
    refine ⟨view, ?_⟩
    simp [busInReset, sameDraws, sameResponses]
  | false =>
    have hrs := sameRst.trans hr
    refine ⟨?_, ?_⟩
    · rw [step_bus_released hrs hs] at hs'
      rw [step_bus_released hr ht] at ht'
      refine busTransaction_sameView ?_ tr s' t' hs' ht'
      exact view
    · rw [step_bus_responses hrs hs hs', step_bus_responses hr ht ht', view.response, sameResponses]

end Sys2Proof.Machine
end

section
/-! Bus errors (R42): which accesses they are, and that the port answers them and does nothing else. -/

namespace Sys2Proof.Machine

theorem Transaction.isError_eq_false {t : Transaction} :
    t.isError = false ↔ t.size = .word ∧ t.off.toNat % 4 = 0 := by
  simp [Transaction.isError, ← BitVec.toNat_inj, BitVec.extractLsb'_toNat]

theorem Transaction.isError_eq_true {t : Transaction} :
    t.isError = true ↔ t.size ≠ .word ∨ t.off.toNat % 4 ≠ 0 := by
  rw [← Bool.not_eq_false, Transaction.isError_eq_false, not_and_or]

/-- A bus error is answered and changes nothing: its write does not reach the register. -/
theorem busTransaction_of_isError {t : Transaction} (s : State) (he : t.isError = true) :
    busTransaction t s = .next (s.respond (t.response s.core)) := by
  cases t with
  | read off size => rfl
  | write off size w => simp [busTransaction, he]

/-- Settles O29: a bus error is only answered, with err = 1; any other access is answered by the step with err = 0. -/
theorem busErrorsChangeNothing : Obligations.BusErrorsChangeNothing := by
  intro s t rest hr hp
  refine ⟨fun bad => ?_, fun word aligned => ?_⟩
  · have he := Transaction.isError_eq_true.2 bad
    have answered := (step_bus_released hr hp).trans (busTransaction_of_isError _ he)
    refine ⟨?_, ?_⟩
    · rintro off size rfl
      rw [answered]
      simp only [Transaction.response, he]
      rfl
    · rintro off size w rfl
      rw [answered]
      simp only [Transaction.response, he]
      rfl
  · have he := Transaction.isError_eq_false.2 ⟨word, aligned⟩
    obtain ⟨u, hu, ports⟩ := step_bus hr hp
    refine ⟨u, hu, ?_⟩
    rw [ports.responses]
    cases t with
    | read off size => exact .inl ⟨(Reg.select off).read s.core, by simp [Transaction.response, he]⟩
    | write off size w => exact .inr (by simp [Transaction.response, he])

end Sys2Proof.Machine
end

section
/-! The bus view and the cipher view of the same four bytes are byte swaps of each other (R43, R45, R46). -/

namespace Sys2Proof.Machine

theorem Memory.readBE_writeLanes (m : Memory) (a : Nat) (w : Word) : (m.writeLanes a w).readBE a = bswap32 w := by
  rw [readBE_eq_bswap32_readLanes, Memory.readLanes_writeLanes]

theorem Memory.readLanes_writeBE (m : Memory) (a : Nat) (w : Word) : (m.writeBE a w).readLanes a = bswap32 w := by
  simp only [Memory.readLanes, lanesToWord, Memory.read_writeBE, bswap32]
  simp

/-- Key word i, loaded after a write of KEY_IN<i>, is what that register's four bytes hold big-endian (R45, R92). -/
theorem get_loadKey_writeKeyIn (c : TeaCore) (i : BitVec 2) (w : Word) (v : Variant) :
    ((c.writeKeyIn i w).loadKey v).k.get i = (c.keybuf.writeLanes (4 * i.toNat) w).readBE (4 * i.toNat) := by
  simp [keyWords]

/-- Settles O37: DATA and KEY_IN write in the bus view and the cipher reads big-endian, or the other way round. -/
theorem busWordIsTheByteSwappedCipherWord : Obligations.BusWordIsTheByteSwappedCipherWord := by
  refine ⟨fun _ => rfl, fun c j w hb => ?_, fun m j w => m.readLanes_writeBE _ w, fun c i w v => ?_,
    fun m i w => m.readLanes_writeBE _ w⟩
  · rw [TeaCore.writeData_of_idle j w hb]
    exact Memory.readBE_writeLanes _ _ w
  · rw [get_loadKey_writeKeyIn]
    exact Memory.readBE_writeLanes _ _ w

end Sys2Proof.Machine
end

section
/-! Reads have no effect, and a second write of the same word has none beyond the first, but for CMD (R48). -/

namespace Sys2Proof.Machine

/-- A read leaves the core, with rst released or asserted. -/
theorem step_read_core {s t : State} {off : BitVec 6} {size : AccessSize} {rest : List Event}
    (hp : s.pending = .bus (.read off size) :: rest) (h : step s = .next t) : t.core = s.core := by
  cases hr : s.rst with
  | true =>
    cases (step_bus_in_reset hr hp).symm.trans h
    rfl
  | false =>
    cases (step_bus_released hr hp).symm.trans h
    rfl

/-- The canonical form makes it an equality: a second write leaves the same bytes, and they have one canonical list. -/
theorem Memory.writeLanes_writeLanes {size : Nat} {m : Memory} {a : Nat} (w : Word) (ha : a + 3 < size)
    (h : m.wf size = true) : (m.writeLanes a w).writeLanes a w = m.writeLanes a w := by
  have once := Memory.wf_writeLanes w ha h
  refine Memory.eq_of_read (Memory.wf_writeLanes w ha once) once fun b => ?_
  simp only [Memory.read_writeLanes]
  split_ifs <;> rfl

theorem TeaCore.writeStatus_writeStatus (c : TeaCore) (w : Word) :
    (c.writeStatus w).writeStatus w = c.writeStatus w := by
  have again {α : Type} (b : Bool) (x y : α) : (if b then x else if b then x else y) = if b then x else y := by
    cases b <;> rfl
  simp only [TeaCore.writeStatus, again]

theorem TeaCore.writeKeyIn_writeKeyIn {c : TeaCore} (i : BitVec 2) (w : Word)
    (h : c.keybuf.wf keybufBytes = true) : (c.writeKeyIn i w).writeKeyIn i w = c.writeKeyIn i w := by
  have bytes := Memory.writeLanes_writeLanes w (keyIn_in_keybuf i) h
  have bit : c.keyinWr ||| (1#4 <<< i.toNat) ||| (1#4 <<< i.toNat) = c.keyinWr ||| (1#4 <<< i.toNat) := by
    rw [BitVec.or_assoc, BitVec.or_self]
  simp only [TeaCore.writeKeyIn, bytes, bit]

theorem TeaCore.writeData_writeData {c : TeaCore} (j : BitVec 3) (w : Word) (h : c.dbuf.wf dbufBytes = true)
    (hb : c.busy = false) : (c.writeData j w).writeData j w = c.writeData j w := by
  have bytes := Memory.writeLanes_writeLanes w (data_in_dbuf j) h
  have stored := TeaCore.writeData_of_idle j w hb
  have idle : (c.writeData j w).busy = false := by rwa [stored]
  rw [TeaCore.writeData_of_idle j w idle]
  simp only [stored, bytes]

/-- Where ERR is clear, writing CMD again while the command is in flight sets it. -/
theorem handleCmd_of_busy_changes_core {s : State} (w : Word) (hb : s.core.busy = true) (he : s.core.err = false) :
    ∃ u, handleCmd w s = .next u ∧ u.core ≠ s.core := by
  refine ⟨s.reject .busy, handleCmd_of_busy w hb, fun same => ?_⟩
  have flag := congrArg TeaCore.err same
  simp [he] at flag

/-- The machine at rest with a key, the all-zero one, and no flag set. -/
def keyedReset : State := { State.reset with core := { TeaCore.reset with keyValid := true } }

theorem handleCmd_enc4_keyedReset :
    handleCmd (encode .enc4) keyedReset = .next { keyedReset with core := keyedReset.core.accept .enc4 0 } := rfl

/-- Settles O38: reads and the three writes by their lemmas; the CMD write that is not idempotent is ENC4's word on a core
with a key: accepted the first time, rejected with BUSY the second. -/
theorem readsAndRepeatedWritesHaveNoFurtherEffect : Obligations.ReadsAndRepeatedWritesHaveNoFurtherEffect := by
  refine ⟨fun _ _ _ _ _ hp h => step_read_core hp h, fun c w => c.writeStatus_writeStatus w,
    fun _ i w h => TeaCore.writeKeyIn_writeKeyIn i w h, fun _ j w h hb => TeaCore.writeData_writeData j w h hb, ?_⟩
  obtain ⟨u, rejected, changed⟩ := handleCmd_of_busy_changes_core
    (s := { keyedReset with core := keyedReset.core.accept .enc4 0 }) (encode .enc4) rfl rfl
  exact ⟨_, _, u, _, handleCmd_enc4_keyedReset, rfl, rejected, changed⟩

end Sys2Proof.Machine
end

section
/-! The platform's address decode in front of the core, at every BASE (R41, R49). -/

namespace Sys2Proof.Machine

theorem windowOffset_outside {base addr : Nat} (h : addr < base ∨ base + 64 ≤ addr) : windowOffset base addr = none :=
  if_neg (by omega)

theorem windowOffset_inside {base addr : Nat} (low : base ≤ addr) (high : addr < base + 64) :
    ∃ off, windowOffset base addr = some off ∧ off.toNat = addr - base :=
  ⟨BitVec.ofNat 6 (addr - base), if_pos ⟨low, high⟩, by rw [BitVec.toNat_ofNat]; omega⟩

/-- The register an offset selects stands at the offset with its two low bits cleared (R29, R41). -/
theorem Reg.toNat_offset_select (off : BitVec 6) :
    (Reg.select off).offset.toNat = 4 * (off.extractLsb' 2 4).toNat := by
  revert off
  decide

/-- Settles O44: outside the window there is no offset and no transfer; inside, the transfer brings the core the
transaction at address - BASE, whatever the bus protocol. -/
theorem windowDecodesAddresses : Obligations.WindowDecodesAddresses := by
  refine ⟨Nat.mul_mod_right 64 _, fun s addr size w => ⟨fun outside => ?_, fun low high => ?_⟩, Reg.toNat_offset_select⟩
  · have decoded := windowOffset_outside outside
    simp [State.hostRead, State.hostWrite, decoded]
  · obtain ⟨off, decoded, place⟩ := windowOffset_inside low high
    refine ⟨off, place, ?_⟩
    simp [State.hostRead, State.hostWrite, decoded]

end Sys2Proof.Machine
end

section
/-! The command word (R61), its five fields side by side, and the round trips of the decoder and the encoder (R63, R65):
a word whose reserved fields are zero is the command word of its other three. -/

namespace Sys2Proof

@[simp] theorem resHiField_commandWord (sel var : BitVec 2) (op : BitVec 4) : resHiField (commandWord sel var op) = 0 :=
  (Laws.WordFields.commandWord_fields sel var op).1

@[simp] theorem selField_commandWord (sel var : BitVec 2) (op : BitVec 4) : selField (commandWord sel var op) = sel :=
  (Laws.WordFields.commandWord_fields sel var op).2.1

@[simp] theorem resMidField_commandWord (sel var : BitVec 2) (op : BitVec 4) :
    resMidField (commandWord sel var op) = 0 :=
  (Laws.WordFields.commandWord_fields sel var op).2.2.1

@[simp] theorem varField_commandWord (sel var : BitVec 2) (op : BitVec 4) : varField (commandWord sel var op) = var :=
  (Laws.WordFields.commandWord_fields sel var op).2.2.2.1

@[simp] theorem opField_commandWord (sel var : BitVec 2) (op : BitVec 4) : opField (commandWord sel var op) = op :=
  (Laws.WordFields.commandWord_fields sel var op).2.2.2.2

theorem fields_join (w : Word) : resHiField w ++ selField w ++ resMidField w ++ varField w ++ opField w = w := by
  simp only [resHiField, selField, resMidField, varField, opField]
  iterate 4 rw [BitVec.extractLsb'_append_extractLsb'_eq_extractLsb' (by rfl)]
  exact BitVec.extractLsb'_eq_self

theorem eq_commandWord {w : Word} (hi : resHiField w = 0) (mid : resMidField w = 0) :
    w = commandWord (selField w) (varField w) (opField w) := by
  have joined := fields_join w
  rw [hi, mid] at joined
  exact joined.symm

theorem eq_ofNat_of_opcode {op : BitVec 4} {n : Nat} (h : op.toNat = n) : op = BitVec.ofNat 4 n := by
  rw [← h, BitVec.ofNat_toNat, BitVec.setWidth_eq]

/-- R63, R65: the word of a well-formed command means that command. -/
theorem decode_encode {i : Instr} (h : i.wellFormed = true) : decode (encode i) = .command i := by
  cases i with
  | ldkey var =>
    have legal : var ≠ 3#2 := by simpa [Instr.wellFormed] using h
    simp [decode, encode, legal]
  | _ => simp [decode, encode]

/-- R61, R65: in each row of the decoder the checks fix every field the command does not carry, so the word is the
command's. -/
theorem wellFormed_and_encode_of_decode {w : Word} {i : Instr} (h : decode w = .command i) :
    i.wellFormed = true ∧ encode i = w := by
  unfold decode at h
  split at h
  case isTrue => cases h
  case isFalse reserved =>
    obtain ⟨hi, mid⟩ : resHiField w = 0 ∧ resMidField w = 0 := by simpa [not_or] using reserved
    have word := eq_commandWord hi mid
    split at h
    case h_1 hop =>
      split_ifs at h with sel var
      cases h
      rw [not_not.1 sel, eq_ofNat_of_opcode hop] at word
      exact ⟨by simpa [Instr.wellFormed] using var, word.symm⟩
    case h_2 hop | h_3 hop =>
      split_ifs at h with var
      cases h
      rw [not_not.1 var, eq_ofNat_of_opcode hop] at word
      exact ⟨rfl, word.symm⟩
    case h_4 hop | h_5 hop =>
      split_ifs at h with var sel
      cases h
      rw [not_not.1 var, not_not.1 sel, eq_ofNat_of_opcode hop] at word
      exact ⟨rfl, word.symm⟩
    case h_6 => cases h

/-- R63, R65: the decoder and the encoder are each other's inverse on the well-formed commands. -/
theorem decode_eq_command_iff {w : Word} {i : Instr} :
    decode w = .command i ↔ i.wellFormed = true ∧ encode i = w :=
  ⟨wellFormed_and_encode_of_decode, fun ⟨legal, word⟩ => word ▸ decode_encode legal⟩

@[simp] theorem decodeBytes_lanes (w : Word) (rest : List Byte) :
    decodeBytes (lane w 0 :: lane w 1 :: lane w 2 :: lane w 3 :: rest) = (decode w, rest) := by
  simp only [decodeBytes, lanesToWord, Machine.lanes_join]

/-- At 32 bits the opcode table numbers a word by its value. -/
@[simp] theorem tableWord_toNat (w : Word) : tableWord 32 w.toNat = w := by
  rw [tableWord, Nat.mod_eq_of_lt w.isLt, BitVec.ofNat_toNat, BitVec.setWidth_eq]

theorem decodeTableWord_toNat (w : Word) : decodeTableWord 32 w.toNat = (decode w).instr? := by
  have fits : ¬ 2 ^ 32 ≤ w.toNat % 2 ^ 32 := (Nat.mod_lt _ (by decide)).not_ge
  rw [decodeTableWord, if_neg fits, tableWord_toNat, decodeBytes_lanes]

/-- Settles O3: one round trip of the word; the byte form and the table form decode the same word. -/
theorem decodingAnEncodedCommandGivesItBack : Obligations.DecodingAnEncodedCommandGivesItBack := by
  intro i rest legal
  have word := decode_encode legal
  refine ⟨word, ?_, ?_⟩
  · exact (decodeBytes_lanes (encode i) rest).trans (by rw [word])
  · rw [decodeTableWord_toNat, word]
    rfl

/-- Settles O4: the decoder's checks fix every field of the word that the command does not carry. -/
theorem encodingADecodedWordGivesItBack : Obligations.EncodingADecodedWordGivesItBack :=
  fun _ _ => wellFormed_and_encode_of_decode

/-- The 13 commands of R63. -/
def legalCommands : List Instr :=
  [.ldkey 0, .ldkey 1, .ldkey 2, .enc1 0, .enc1 1, .enc1 2, .enc1 3, .dec1 0, .dec1 1, .dec1 2, .dec1 3, .enc4, .dec4]

theorem mem_legalCommands {i : Instr} : i ∈ legalCommands ↔ i.wellFormed = true := by
  cases i with
  | ldkey field | enc1 field | dec1 field =>
    rcases Machine.bitVec2_cases field with rfl | rfl | rfl | rfl <;> decide
  | enc4 | dec4 => decide

/-- R63: the words that mean a command are the encodings of the 13. -/
theorem exists_decode_eq_command_iff (w : Word) :
    (∃ i, decode w = .command i) ↔ w ∈ legalCommands.map encode := by
  simp only [List.mem_map, mem_legalCommands, decode_eq_command_iff]

/-- `{SEL, 0000, OP}` as a number: SEL stands at bit 8 (R61). -/
theorem commandWord_eq_ofNat (sel : BitVec 2) (op : BitVec 4) :
    commandWord sel 0 op = BitVec.ofNat 32 (op.toNat + 256 * sel.toNat) := by
  revert sel op
  decide

/-- Settles O2: the decoder accepts the words of the 13 commands and no others, and each by the round trip. -/
theorem thirteenLegalCommandWords : Obligations.ThirteenLegalCommandWords := by
  have means {w : Word} {i : Instr} (legal : i.wellFormed = true) (word : encode i = w) : decode w = .command i :=
    decode_eq_command_iff.2 ⟨legal, word⟩
  refine ⟨exists_decode_eq_command_iff, means rfl rfl, means rfl rfl, means rfl rfl, fun sel => ⟨?_, ?_⟩,
    means rfl rfl, means rfl rfl⟩
  · exact means rfl (commandWord_eq_ofNat sel 2)
  · exact means rfl (commandWord_eq_ofNat sel 3)

end Sys2Proof
end

section
/-! Illegal words (R64): which they are, and the rejection of such a word written to CMD. -/

namespace Sys2Proof.Machine

/-- R63: the opcodes that no command has are 0 and those from 6 on. -/
theorem eq_zero_or_six_le_of_no_opcode {op : BitVec 4} (n1 : op.toNat ≠ 1) (n2 : op.toNat ≠ 2) (n3 : op.toNat ≠ 3)
    (n4 : op.toNat ≠ 4) (n5 : op.toNat ≠ 5) : op = 0 ∨ 6 ≤ op.toNat := by
  have byNumber : op.toNat = 0 ∨ 6 ≤ op.toNat := by omega
  exact byNumber.imp_left eq_ofNat_of_opcode

theorem exists_ite_eq_illegal (p : Prop) [Decidable p] (r : IllegalReason) (d : Decoded) :
    (∃ why, (if p then .illegal r else d) = .illegal why) ↔ p ∨ ∃ why, d = .illegal why := by
  split <;> simp [*]

/-- R64: the reserved bits, the reserved opcodes, and per opcode the fields that must be zero or legal. -/
theorem exists_decode_eq_illegal_iff (w : Word) : (∃ why, decode w = .illegal why) ↔
    resHiField w ≠ 0 ∨ resMidField w ≠ 0 ∨ (opField w = 0 ∨ 6 ≤ (opField w).toNat) ∨
      (opField w = 1 ∧ varField w = 3) ∨ (opField w = 1 ∧ selField w ≠ 0) ∨
      ((opField w = 2 ∨ opField w = 3) ∧ varField w ≠ 0) ∨
      ((opField w = 4 ∨ opField w = 5) ∧ (varField w ≠ 0 ∨ selField w ≠ 0)) := by
  unfold decode
  rw [exists_ite_eq_illegal, or_assoc]
  refine or_congr_right (or_congr_right ?_)
  generalize opField w = op
  generalize selField w = sel
  generalize varField w = var
  split
  case h_1 hop | h_2 hop | h_3 hop | h_4 hop | h_5 hop =>
    obtain rfl := eq_ofNat_of_opcode hop
    simp only [exists_ite_eq_illegal]
    simp [or_comm]
  case h_6 n1 n2 n3 n4 n5 =>
    exact ⟨fun _ => .inl (eq_zero_or_six_le_of_no_opcode n1 n2 n3 n4 n5), fun _ => ⟨_, rfl⟩⟩

theorem handleCmd_of_idle_illegal {s : State} {w : Word} {why : IllegalReason} (hb : s.core.busy = false)
    (hd : decode w = .illegal why) : handleCmd w s = .next (s.reject .illegal) := by
  simp [handleCmd, hb, hd]

/-- Settles O5: the characterisation of the illegal words; the BUSY check comes first (R90), then the check of the word. -/
theorem illegalWordsAreRejected : Obligations.IllegalWordsAreRejected := by
  refine ⟨exists_decode_eq_illegal_iff, fun s w rest hr hp ⟨why, hd⟩ => ?_⟩
  rw [step_cmdWrite hr hp]
  exact ⟨fun hb => handleCmd_of_idle_illegal hb hd, fun hb => handleCmd_of_busy w hb⟩

end Sys2Proof.Machine
end

section
/-! Commands as text (R66): the parser sees upper case only, and reads back what the printer prints. -/

namespace Sys2Proof.Machine

/-- Mnemonics and operands are case-insensitive: the parser sees the text in upper case only. -/
theorem parse?_map_toLower (text : List Char) : parse? (text.map Char.toLower) = parse? text := by
  have upper : (text.map Char.toLower).map Char.toUpper = text.map Char.toUpper := by
    simp [Char.toUpper_toLower_eq_toUpper]
  simp only [parse?, upper]

/-- What the printer prints is in upper case and is read back: it is one of 13 texts, and the parser runs on each. -/
theorem parse?_printInstr? {i : Instr} {text : List Char} (h : printInstr? i = some text) :
    text.map Char.toUpper = text ∧ parse? text = some i := by
  cases i with
  | ldkey var =>
    obtain ⟨v, hv, rfl⟩ := Option.map_eq_some_iff.1 h
    obtain rfl := Variant.ofCode?_eq_some.1 hv
    cases v <;> decide
  | enc1 sel | dec1 sel =>
    cases h
    rcases bitVec2_cases sel with rfl | rfl | rfl | rfl <;> decide
  | enc4 | dec4 =>
    cases h
    decide

/-- The one command form without a text is LDKEY with the reserved variant code. -/
theorem exists_printInstr? {i : Instr} (h : i.wellFormed = true) : ∃ text, printInstr? i = some text := by
  cases i with
  | ldkey var =>
    cases hv : Variant.ofCode? var with
    | none => simp [Variant.ofCode?_eq_none.1 hv, Instr.wellFormed] at h
    | some v => exact ⟨_, by rw [printInstr?, hv]; rfl⟩
  | _ => exact ⟨_, rfl⟩

/-- Settles O6: the printed text is read back, and case does not matter to the parser. -/
theorem printedCommandsParseBack : Obligations.PrintedCommandsParseBack := by
  intro i legal
  obtain ⟨text, printed⟩ := exists_printInstr? legal
  obtain ⟨upper, back⟩ := parse?_printInstr? printed
  exact ⟨text, printed, upper, back, (parse?_map_toLower text).trans back⟩

end Sys2Proof.Machine
end

section
/-! The word operations on the unsigned values and on bits (R70 to R74). -/

namespace Sys2Proof.Machine

theorem toNat_wordAdd (a b : Word) : (wordAdd a b).toNat = (a.toNat + b.toNat) % 2 ^ 32 := BitVec.toNat_add a b

theorem toNat_wordSub (a b : Word) : (wordSub a b).toNat = (a.toNat + 2 ^ 32 - b.toNat) % 2 ^ 32 := by
  rw [wordSub, BitVec.toNat_sub]
  congr 1
  omega

/-- Subtracting a nonzero word adds its two's complement (R71). -/
theorem wordSub_eq_wordAdd_of_ne_zero (a : Word) {b : Word} (hb : b ≠ 0) :
    wordSub a b = wordAdd a (BitVec.ofNat 32 (2 ^ 32 - b.toNat)) := by
  have complement : (BitVec.ofNat 32 (2 ^ 32 - b.toNat)).toNat = 2 ^ 32 - b.toNat := by
    have positive : b.toNat ≠ 0 := fun h => hb (BitVec.eq_of_toNat_eq h)
    rw [BitVec.toNat_ofNat]
    exact Nat.mod_eq_of_lt (by omega)
  apply BitVec.eq_of_toNat_eq
  rw [toNat_wordSub, toNat_wordAdd, complement]
  congr 1
  omega

theorem getLsbD_wordXor (a b : Word) (n : Nat) : (wordXor a b).getLsbD n = (a.getLsbD n != b.getLsbD n) :=
  BitVec.getLsbD_xor

theorem toNat_wordShl (a : Word) (n : Nat) : (wordShl a n).toNat = a.toNat * 2 ^ n % 2 ^ 32 := by
  rw [wordShl, BitVec.toNat_shiftLeft, Nat.shiftLeft_eq]

theorem toNat_wordShr (a : Word) (n : Nat) : (wordShr a n).toNat = a.toNat / 2 ^ n := by
  rw [wordShr, BitVec.toNat_ushiftRight, Nat.shiftRight_eq_div_pow]

/-- Settles O15: each operation by its value or its bits. -/
theorem wordOperationsCompute : Obligations.WordOperationsCompute := fun a b =>
  ⟨toNat_wordAdd a b, toNat_wordSub a b, wordSub_eq_wordAdd_of_ne_zero a, BitVec.sub_self a,
    fun n _ => getLsbD_wordXor a b n, BitVec.xor_self, BitVec.xor_zero, toNat_wordShl a, toNat_wordShr a⟩

end Sys2Proof.Machine
end

section
/-! The rounds of one word pair (R78 to R81): a round of decryption undoes a round of encryption and the other way round,
and the accumulator counts the rounds. -/

namespace Sys2Proof.Machine

/-- R79 takes back the words in the opposite order of R78, so each mixing sees the values it was added with. -/
theorem decRound_encRound (k : Words4) : Function.LeftInverse (decRound k) (encRound k) := fun p => by
  simp [decRound, encRound, wordAdd, wordSub]

theorem encRound_decRound (k : Words4) : Function.LeftInverse (encRound k) (decRound k) := fun p => by
  simp [decRound, encRound, wordAdd, wordSub]

theorem decRounds_encRounds (k : Words4) (n : Nat) (p : PairState) : decRounds k n (encRounds k n p) = p :=
  (decRound_encRound k).iterate n p

theorem encRounds_decRounds (k : Words4) (n : Nat) (p : PairState) : encRounds k n (decRounds k n p) = p :=
  (encRound_decRound k).iterate n p

theorem encRounds_add (k : Words4) (m n : Nat) (p : PairState) :
    encRounds k (m + n) p = encRounds k m (encRounds k n p) :=
  Function.iterate_add_apply _ _ _ _

/-- R78: each round of encryption adds DELTA to the accumulator, whatever the key and the data. -/
theorem encRounds_sum (k : Words4) (n : Nat) (p : PairState) :
    (encRounds k n p).sum = p.sum + DELTA * BitVec.ofNat 32 n := by
  induction n with
  | zero => simp [encRounds_zero]
  | succ n ih =>
    rw [encRounds_succ_last]
    simp only [encRound, wordAdd, ih, BitVec.ofNat_add, BitVec.mul_add, BitVec.mul_one, BitVec.add_assoc]

/-- Decryption takes DELTA off the accumulator in each round, since encryption puts it back. -/
theorem decRounds_sum (k : Words4) (n : Nat) (p : PairState) :
    (decRounds k n p).sum = p.sum - DELTA * BitVec.ofNat 32 n := by
  have counted := encRounds_sum k n (decRounds k n p)
  rw [encRounds_decRounds] at counted
  exact eq_sub_of_add_eq counted.symm

theorem Variant.rounds_eq_two_pow_shift (v : Variant) : v.rounds = 2 ^ v.shift := by cases v <;> rfl

theorem decSeed_eq_mul_rounds (v : Variant) : decSeed v = DELTA * BitVec.ofNat 32 v.rounds := by
  apply BitVec.eq_of_toNat_eq
  rw [decSeed, toNat_wordShl, v.rounds_eq_two_pow_shift, BitVec.toNat_mul, BitVec.toNat_ofNat, Nat.mul_mod_mod]

/-- The accumulator of a whole encryption ends where decryption starts (R80). -/
theorem encRounds_rounds_sum (k : Words4) (v : Variant) (x y : Word) :
    (encRounds k v.rounds ⟨0, x, y⟩).sum = decSeed v := by
  rw [encRounds_sum, decSeed_eq_mul_rounds]
  exact BitVec.zero_add _

/-- The accumulator of a whole decryption ends where encryption starts. -/
theorem decRounds_rounds_sum (k : Words4) (v : Variant) (x y : Word) :
    (decRounds k v.rounds ⟨decSeed v, x, y⟩).sum = 0 := by
  rw [decRounds_sum, decSeed_eq_mul_rounds]
  exact BitVec.sub_self _

/-- Decryption of a cipher pair starts from the end state of its encryption, the accumulator with it. -/
theorem decSeed_teaEnc (k : Words4) (v : Variant) (x y : Word) :
    (⟨decSeed v, (teaEnc x y k v).1, (teaEnc x y k v).2⟩ : PairState) = encRounds k v.rounds ⟨0, x, y⟩ := by
  rw [← encRounds_rounds_sum k v x y]
  rfl

theorem zero_teaDec (k : Words4) (v : Variant) (x y : Word) :
    (⟨0, (teaDec x y k v).1, (teaDec x y k v).2⟩ : PairState) = decRounds k v.rounds ⟨decSeed v, x, y⟩ := by
  rw [← decRounds_rounds_sum k v x y]
  rfl

theorem teaDec_teaEnc (k : Words4) (v : Variant) (x y : Word) :
    teaDec (teaEnc x y k v).1 (teaEnc x y k v).2 k v = (x, y) := by
  rw [teaDec, decSeed_teaEnc, decRounds_encRounds]

theorem teaEnc_teaDec (k : Words4) (v : Variant) (x y : Word) :
    teaEnc (teaDec x y k v).1 (teaDec x y k v).2 k v = (x, y) := by
  rw [teaEnc, zero_teaDec, encRounds_decRounds]

/-- Round by round: `j` rounds of decryption undo the last `j` of `n` rounds of encryption (R81). -/
theorem decRounds_encRounds_of_le (k : Words4) {j n : Nat} (h : j ≤ n) (p : PairState) :
    decRounds k j (encRounds k n p) = encRounds k (n - j) p := by
  obtain ⟨m, rfl⟩ := Nat.exists_eq_add_of_le h
  rw [encRounds_add, decRounds_encRounds, Nat.add_sub_cancel_left]

/-- Settles O17: the seed is DELTA times the number of rounds, and each round of encryption adds DELTA once. -/
theorem decryptionSeedIsTheFinalSum : Obligations.DecryptionSeedIsTheFinalSum := fun v =>
  ⟨rfl, v.rounds_eq_two_pow_shift, decSeed_eq_mul_rounds v, fun k => encRounds_rounds_sum k v⟩

/-- Settles O18: decryption starts from the end state of encryption, and each of its rounds undoes one. -/
theorem decryptionInvertsEncryption : Obligations.DecryptionInvertsEncryption := by
  intro k v x y
  refine ⟨teaDec_teaEnc k v x y, teaEnc_teaDec k v x y, fun j hj => ⟨?_, ?_⟩⟩
  · rw [decSeed_teaEnc, decRounds_encRounds_of_le k hj]
  · rw [encRounds_sum]
    exact BitVec.zero_add _

end Sys2Proof.Machine
end

section
/-! The four lanes against the single block (R85): every round of a lane is the scalar round, so every number of rounds is,
and so is what a completion stores in each of its blocks (R93 to R97). -/

namespace Sys2Proof.Machine

theorem pair_vencRounds (k : Words4) (n : Nat) (l : LaneState) (i : BitVec 2) :
    (vencRounds k n l).pair i = encRounds k n (l.pair i) :=
  have onLane : Function.Semiconj (LaneState.pair · i) (vencRound k) (encRound k) := (pair_vencRound k · i)
  onLane.iterate_right n l

theorem pair_vdecRounds (k : Words4) (n : Nat) (l : LaneState) (i : BitVec 2) :
    (vdecRounds k n l).pair i = decRounds k n (l.pair i) :=
  have onLane : Function.Semiconj (LaneState.pair · i) (vdecRound k) (decRound k) := (pair_vdecRound k · i)
  onLane.iterate_right n l

theorem get_vTeaEnc (x y k : Words4) (v : Variant) (i : BitVec 2) :
    ((vTeaEnc x y k v).1.get i, (vTeaEnc x y k v).2.get i) = teaEnc (x.get i) (y.get i) k v :=
  congrArg (fun p : PairState => (p.x, p.y)) (pair_vencRounds k v.rounds ⟨0, x, y⟩ i)

theorem get_vTeaDec (x y k : Words4) (v : Variant) (i : BitVec 2) :
    ((vTeaDec x y k v).1.get i, (vTeaDec x y k v).2.get i) = teaDec (x.get i) (y.get i) k v :=
  congrArg (fun p : PairState => (p.x, p.y)) (pair_vdecRounds k v.rounds ⟨decSeed v, x, y⟩ i)

/-- Settles O16: the lane-parallel rounds commute with taking a lane. -/
theorem lanesEqualTheSingleBlockPath : Obligations.LanesEqualTheSingleBlockPath := fun x y k v i =>
  ⟨get_vTeaEnc x y k v i, get_vTeaDec x y k v i⟩

/-- Lane i of the deinterleaved buffer is block i (R83). -/
theorem get_deinterleave (m : Memory) (i : BitVec 2) :
    ((deinterleave m).1.get i, (deinterleave m).2.get i) = loadBlock m i := by
  simp [deinterleave, loadBlock]

/-- A completion stores in each block of its command what the operation makes of that block (R97). -/
theorem loadBlock_transformResult {op : TransformOp} {sel i : BitVec 2} (c : TeaCore)
    (hi : laneActive op sel i = true) :
    loadBlock (transformResult op sel c) i = transformPair op c.k c.variant (loadBlock c.dbuf i) := by
  cases op with
  | enc1 | dec1 =>
    obtain rfl : i = sel := by simpa [laneActive] using hi
    exact loadBlock_storeBlock _ _ _
  | enc4 =>
    rw [transformResult, resultEnc4, loadBlock_interleave, get_vTeaEnc, ← get_deinterleave]
    rfl
  | dec4 =>
    rw [transformResult, resultDec4, loadBlock_interleave, get_vTeaDec, ← get_deinterleave]
    rfl

/-- The operation on a block is all its rounds from the block's start (R78, R79, R86). -/
theorem transformPair_loadBlock (op : TransformOp) (c : TeaCore) (i : BitVec 2) :
    transformPair op c.k c.variant (loadBlock c.dbuf i) =
      ((pairRounds op c.k c.variant.rounds (pairStart op c i)).x,
        (pairRounds op c.k c.variant.rounds (pairStart op c i)).y) := by
  cases op <;> rfl

/-- Settles O22: with all rounds done the invariant gives the lanes the words that completion stores. -/
theorem lanesHoldTheResultWhenRoundsAreDone : Obligations.LanesHoldTheResultWhenRoundsAreDone := by
  intro c op sel i follow hs done hi
  obtain ⟨-, lanes⟩ := follow op sel hs
  rw [loadBlock_transformResult c hi, transformPair_loadBlock, ← done, lanes i hi]

end Sys2Proof.Machine
end

section
/-! The reference sequencer counts (R86, R87): below ROUNDS(VARIANT) a tick is a round step, which changes the lane
registers only; at ROUNDS(VARIANT) it completes the command. -/

namespace Sys2Proof.Machine

theorem ticks_zero (s : State) : ticks 0 s = s := rfl

theorem ticks_succ_last (n : Nat) (s : State) : ticks (n + 1) s = (ticks n s).tick :=
  Function.iterate_succ_apply' _ _ _

theorem step_tick {s : State} {rest : List Event} (hr : s.rst = false) (hp : s.pending = .tick :: rest) :
    step s = .next (s.popped rest).tick := by
  simp [step_event hp, handleEvent, hr]

theorem State.complete_of_busy {s : State} {op : TransformOp} {sel : BitVec 2} (hs : s.core.seq = .busy op sel) :
    s.complete = { s with core := s.core.finish s.draws op sel, draws := s.draws + 1 } := by
  simp [State.complete, hs]

theorem State.tick_of_lt_rounds {s : State} {op : TransformOp} {sel : BitVec 2} (hs : s.core.seq = .busy op sel)
    (hr : s.core.rcnt.toNat < s.core.variant.rounds) : s.tick = { s with core := s.core.roundStep op sel } := by
  simp [State.tick, hs, hr]

theorem State.tick_of_rounds_done {s : State} {op : TransformOp} {sel : BitVec 2} (hs : s.core.seq = .busy op sel)
    (hr : s.core.rcnt.toNat = s.core.variant.rounds) : s.tick = s.complete := by
  simp [State.tick, hs, hr]

/-- RCNT has room for the next round: it is 7 bits wide and ROUNDS is at most 64. -/
theorem TeaCore.toNat_roundStep_rcnt {c : TeaCore} (op : TransformOp) (sel : BitVec 2)
    (hr : c.rcnt.toNat < c.variant.rounds) : (c.roundStep op sel).rcnt.toNat = c.rcnt.toNat + 1 := by
  have := c.variant.rounds_le
  rw [TeaCore.roundStep_rcnt, BitVec.toNat_add]
  exact Nat.mod_eq_of_lt (by simpa using by omega)

/-- `s` with the lane registers and RCNT of the core `d`: what round steps may change (R27, R86). -/
def State.withLanesOf (d : TeaCore) (s : State) : State :=
  { s with core := { s.core with x := d.x, y := d.y, sum := d.sum, rcnt := d.rcnt } }

@[simp] theorem State.withLanesOf_seq (d : TeaCore) (s : State) : (s.withLanesOf d).core.seq = s.core.seq := rfl

@[simp] theorem State.withLanesOf_variant (d : TeaCore) (s : State) :
    (s.withLanesOf d).core.variant = s.core.variant := rfl

theorem State.withLanesOf_self (s : State) : s.withLanesOf s.core = s := rfl

/-- A round step changes the lane registers only (R86). -/
theorem State.roundStep_eq_withLanesOf (s : State) (d : TeaCore) (op : TransformOp) (sel : BitVec 2) :
    { s.withLanesOf d with core := (s.withLanesOf d).core.roundStep op sel } =
      s.withLanesOf ((s.withLanesOf d).core.roundStep op sel) := rfl

/-- Completion computes from DBUF, K and VARIANT, not from the lane registers (R97). -/
theorem transformResult_withLanesOf (op : TransformOp) (sel : BitVec 2) (d : TeaCore) (s : State) :
    transformResult op sel (s.withLanesOf d).core = transformResult op sel s.core := by
  cases op <;> rfl

section Flight

variable {s : State} {op : TransformOp} {sel : BitVec 2} (hs : s.core.seq = .busy op sel) (h0 : s.core.rcnt = 0)
include hs h0

/-- Up to ROUNDS(VARIANT) ticks from the start of a command are as many rounds, and change the lane registers only. -/
theorem ticks_of_le_rounds {n : Nat} (hn : n ≤ s.core.variant.rounds) :
    (ticks n s).core.rcnt.toNat = n ∧ ticks n s = s.withLanesOf (ticks n s).core := by
  induction n with
  | zero => exact ⟨by simp [ticks_zero, h0], s.withLanesOf_self.symm⟩
  | succ n ih =>
    obtain ⟨count, frame⟩ := ih (by omega)
    have inFlight : (ticks n s).core.seq = .busy op sel := by rw [frame, State.withLanesOf_seq, hs]
    have more : (ticks n s).core.rcnt.toNat < (ticks n s).core.variant.rounds := by
      rw [count, frame, State.withLanesOf_variant]
      omega
    rw [ticks_succ_last, State.tick_of_lt_rounds inFlight more]
    refine ⟨by rw [TeaCore.toNat_roundStep_rcnt op sel more, count], ?_⟩
    rw [frame]
    exact s.roundStep_eq_withLanesOf _ op sel

/-- The tick after the last round completes the command with its result (R86, R97). -/
theorem ticks_rounds_succ_core : ∃ n d,
    (ticks (s.core.variant.rounds + 1) s).core = (s.withLanesOf d).core.finish n op sel := by
  obtain ⟨count, frame⟩ := ticks_of_le_rounds hs h0 le_rfl
  have inFlight : (ticks s.core.variant.rounds s).core.seq = .busy op sel := by rw [frame, State.withLanesOf_seq, hs]
  have done : (ticks s.core.variant.rounds s).core.rcnt.toNat = (ticks s.core.variant.rounds s).core.variant.rounds := by
    rw [count, frame, State.withLanesOf_variant]
  rw [ticks_succ_last, State.tick_of_rounds_done inFlight done, State.complete_of_busy inFlight]
  exact ⟨_, _, congrArg (fun t : State => t.core.finish _ op sel) frame⟩

end Flight

/-- Settles O21: each tick is one round until RCNT reaches ROUNDS(VARIANT), and the next completes the command. -/
theorem exactlyRoundsRoundSteps : Obligations.ExactlyRoundsRoundSteps := by
  refine ⟨fun s rest hr hp => step_tick hr hp, fun s op sel hs h0 => ?_⟩
  obtain ⟨n, d, finished⟩ := ticks_rounds_succ_core hs h0
  refine ⟨fun _ hn => ticks_of_le_rounds hs h0 hn, ?_, ?_, ?_⟩
  · rw [finished, TeaCore.finish_seq]
  · rw [finished, TeaCore.finish_done]
  · rw [finished, TeaCore.finish_dbuf, transformResult_withLanesOf]

end Sys2Proof.Machine
end

section
/-! What a command does at its CMD write (R90 to R92): a step of the write is the command's meaning, LDKEY is rejected or
loads the staged key, a transform is rejected or taken into flight, and each leaves the rest. -/

namespace Sys2Proof

theorem Decoded.instr?_eq_some {d : Decoded} {i : Instr} : d.instr? = some i ↔ d = .command i := by
  cases d <;> simp [Decoded.instr?]

/-- The decoder reads the instruction of a table word from the word itself. -/
theorem decode_tableWord {nbits w : Nat} {i : Instr} (h : decodeTableWord nbits w = some i) :
    decode (tableWord nbits w) = .command i := by
  unfold decodeTableWord at h
  split at h
  · cases h
  · rw [decodeBytes_lanes] at h
    exact Decoded.instr?_eq_some.1 h

end Sys2Proof

namespace Sys2Proof.Machine

/-- A CMD write of a legal word is its command's meaning at the state that has answered the write (R90). -/
theorem step_cmdWrite_of_command {s : State} {w : Word} {i : Instr} {rest : List Event} (hr : s.rst = false)
    (hp : s.pending = cmdWrite w :: rest) (hd : decode w = .command i) :
    step s = exec i ((s.popped rest).respond (.write false)) :=
  (step_cmdWrite hr hp).trans (handleCmd_of_command hd)

/-- Settles O7: the step of a CMD write, for the host's word and for the word that `withFetchWord` places. -/
theorem stepRunsTheDecodedCommand : Obligations.StepRunsTheDecodedCommand :=
  ⟨fun _ _ _ _ hr hp hd => step_cmdWrite_of_command hr hp hd,
    fun s nbits w _ h => step_cmdWrite_of_command (s := s.withFetchWord nbits w) rfl rfl (decode_tableWord h)⟩

/-- Every code but the reserved one is a variant's (R24, R61). -/
theorem Variant.exists_code_eq {code : BitVec 2} (h : code ≠ 3) : ∃ v : Variant, v.code = code := by
  cases hv : Variant.ofCode? code with
  | none => exact absurd (Variant.ofCode?_eq_none.1 hv) h
  | some v => exact ⟨v, Variant.ofCode?_eq_some.1 hv⟩

theorem exec_ldkey_accepted {s : State} (v : Variant) (hb : s.core.busy = false) (hk : s.core.keyinWr = 15#4) :
    exec (.ldkey v.code) s = .next { s with core := s.core.loadKey v } := by
  have variant : Variant.ofCode? v.code = some v := Variant.ofCode?_eq_some.2 rfl
  simp [exec, execLdkey, whenIdle, hb, hk, variant]

/-- Key word j is read from the staged bytes as R45 says. -/
theorem get_keyWords (keybuf : Memory) (j : BitVec 2) : (keyWords keybuf).get j = keybuf.readBE (4 * j.toNat) :=
  Words4.get_ofLanes _ j

/-- Settles O10: with the checks passed LDKEY is `TeaCore.loadKey`. -/
theorem ldkeyLoadsTheStagedKey : Obligations.LdkeyLoadsTheStagedKey := fun s v hb hk =>
  ⟨_, exec_ldkey_accepted v hb hk, rfl, get_keyWords s.core.keybuf, Memory.read_zero⟩

/-- LDKEY loads the key exactly where its checks pass (R90, R92), and is rejected everywhere else. -/
theorem exec_ldkey_outcome (var : BitVec 2) (s : State) :
    (s.core.busy = false ∧ s.core.keyinWr = 15#4 ∧ var ≠ 3) ∧
      (∃ v, exec (.ldkey var) s = .next { s with core := s.core.loadKey v }) ∨
    ¬(s.core.busy = false ∧ s.core.keyinWr = 15#4 ∧ var ≠ 3) ∧ ∃ e, exec (.ldkey var) s = .next (s.reject e) := by
  by_cases passes : s.core.busy = false ∧ s.core.keyinWr = 15#4 ∧ var ≠ 3
  · obtain ⟨idle, staged, legal⟩ := passes
    obtain ⟨v, rfl⟩ := Variant.exists_code_eq legal
    exact .inl ⟨⟨idle, staged, legal⟩, v, exec_ldkey_accepted v idle staged⟩
  · rcases execLdkey_cases var s with rejected | ⟨idle, staged, v, rfl, -⟩
    · exact .inr ⟨passes, rejected⟩
    · exact absurd ⟨idle, staged, v.code_ne_three⟩ passes

/-- Settles O12: the fields that `TeaCore.loadKey` leaves where the checks pass, and `State.reject` where one fails. -/
theorem ldkeyFrame : Obligations.LdkeyFrame := by
  intro s t var h
  rcases exec_ldkey_outcome var s with ⟨passes, v, loaded⟩ | ⟨fails, e, rejected⟩
  · cases loaded.symm.trans h
    exact ⟨rfl, rfl, rfl, rfl, fun _ => rfl, rfl, rfl, rfl, rfl, rfl, rfl, rfl,
      fun _ => ⟨rfl, rfl, Memory.read_zero⟩, fun fails => absurd passes fails⟩
  · cases rejected.symm.trans h
    exact ⟨rfl, rfl, rfl, rfl, fun _ => rfl, rfl, rfl, rfl, rfl, rfl, rfl, rfl,
      fun passes => absurd passes fails, fun _ => ⟨rfl, rfl, rfl, rfl, rfl, fun _ => rfl⟩⟩

/-- The lanes of a command are those R86 names. -/
theorem laneActive_eq_true {op : TransformOp} {sel i : BitVec 2} :
    laneActive op sel i = true ↔ op = .enc4 ∨ op = .dec4 ∨ i = sel := by
  cases op <;> simp [laneActive]

theorem acceptTransform_accepted {s : State} (op : TransformOp) (sel : BitVec 2) (hb : s.core.busy = false)
    (hk : s.core.keyValid = true) : acceptTransform op sel s = { s with core := s.core.accept op sel } := by
  simp [acceptTransform, whenIdle, hb, hk]

/-- Acceptance as R91 and R86 say it: the active lanes take their blocks, the others keep their words. -/
theorem acceptedAs_accept (op : TransformOp) (sel : BitVec 2) (s : State) :
    AcceptedAs op sel s { s with core := s.core.accept op sel } := by
  refine ⟨rfl, fun i => ?_⟩
  rw [← laneActive_eq_true, TeaCore.accept_x, TeaCore.accept_y, get_activeLanes, get_activeLanes]
  refine ⟨fun active => ?_, fun inactive => ?_⟩
  · rw [if_pos active, if_pos active]
    exact get_deinterleave s.core.dbuf i
  · rw [if_neg inactive, if_neg inactive]
    exact ⟨rfl, rfl⟩

/-- Settles O11: with the checks passed each transform is `TeaCore.accept`. -/
theorem transformsAreAccepted : Obligations.TransformsAreAccepted := by
  intro s hb hk
  have accepted (op : TransformOp) (sel : BitVec 2) : ∃ t,
      (.next (acceptTransform op sel s) : Host.Outcome State Fault Refusal) = .next t ∧ AcceptedAs op sel s t :=
    ⟨_, congrArg _ (acceptTransform_accepted op sel hb hk), acceptedAs_accept op sel s⟩
  exact ⟨accepted .enc1, accepted .dec1, accepted .enc4 0, accepted .dec4 0⟩

/-- Settles O13: the fields that `State.reject` leaves, and those that `TeaCore.accept` leaves. -/
theorem transformFrame : Obligations.TransformFrame := by
  intro s t i hi h
  rcases exec_cases i s with ⟨e, rejected⟩ | ⟨-, -, v, key, -⟩ | ⟨-, -, op, sel, -, accepted⟩
  · cases rejected.symm.trans h
    exact ⟨rfl, rfl, rfl, rfl, fun _ => rfl, fun _ => rfl, rfl, rfl, rfl, rfl, rfl, rfl,
      .inr ⟨rfl, rfl, rfl, rfl, rfl, rfl⟩⟩
  · exact absurd key (hi v.code)
  · cases accepted.symm.trans h
    exact ⟨rfl, rfl, rfl, rfl, fun _ => rfl, fun _ => rfl, rfl, rfl, rfl, rfl, rfl, rfl, .inl ⟨rfl, rfl⟩⟩

end Sys2Proof.Machine
end

section
/-! Completion (R93 to R97): what it writes to the blocks of its command and what it leaves, ENC4 and DEC4 as four
single-block commands in turn, and decryption after encryption. -/

namespace Sys2Proof.Machine

theorem read_interleave_outside (m : Memory) (l : Words4 × Words4) {a : Nat} (ha : dbufBytes ≤ a) :
    (interleave m l).read a = m.read a := by
  have outside (m : Memory) (b : BitVec 2) (p : Word × Word) : (storeBlock m b p).read a = m.read a :=
    read_storeBlock_outside m b p (.inr ((block_in_dbuf b).trans_le ha))
  simp only [interleave, outside]

/-- A completion writes to no byte outside the blocks of its command (R93 to R96). -/
theorem read_transformResult_outside {op : TransformOp} {sel : BitVec 2} (c : TeaCore) {a : Nat}
    (h : (op = .enc1 ∨ op = .dec1) ∧ (a < 8 * sel.toNat ∨ 8 * sel.toNat + 8 ≤ a) ∨ dbufBytes ≤ a) :
    (transformResult op sel c).read a = c.dbuf.read a := by
  have := block_in_dbuf sel
  cases op with
  | enc1 | dec1 => exact read_storeBlock_outside _ _ _ (by omega)
  | enc4 | dec4 => exact read_interleave_outside _ _ (by simpa using h)

/-- A completion leaves the blocks that are not its command's (R93, R94). -/
theorem loadBlock_transformResult_other {op : TransformOp} {sel i : BitVec 2} (c : TeaCore)
    (hi : ¬laneActive op sel i = true) : loadBlock (transformResult op sel c) i = loadBlock c.dbuf i := by
  cases op with
  | enc1 | dec1 => exact loadBlock_storeBlock_other _ _ fun same => hi (by simp [laneActive, same])
  | enc4 | dec4 => exact absurd rfl hi

/-- `TeaCore.finish` is the completion of R97, whatever the free values of its draw. -/
theorem completedAs_finish (n draws : Nat) (op : TransformOp) (sel : BitVec 2) (rest : List Event) (s : State) :
    CompletedAs op sel rest s { s with pending := rest, draws := draws, core := s.core.finish n op sel } :=
  ⟨rfl, fun _ inCommand => loadBlock_transformResult s.core (laneActive_eq_true.2 inCommand),
    fun _ outside => read_transformResult_outside s.core outside⟩

theorem step_complete {s : State} {rest : List Event} (hr : s.rst = false) (hp : s.pending = .complete :: rest) :
    step s = .next (s.popped rest).complete := by
  simp [step_event hp, handleEvent, hr]

/-- With nothing pending the step is the completion step (R97; log 2). -/
theorem step_quiet {s : State} (hr : s.rst = false) (hp : s.pending = []) : step s = .next s.complete := by
  simp [step, hp, quietStep, hr]

theorem State.complete_of_idle {s : State} (hs : s.core.seq = .idle) : s.complete = s := by
  simp [State.complete, hs]

/-- The completion step comes as an event, or by itself when nothing is pending (R97). -/
theorem step_completes {s : State} {rest : List Event} (hr : s.rst = false)
    (hp : s.pending = .complete :: rest ∨ s.pending = [] ∧ rest = []) :
    step s = .next (s.popped rest).complete := by
  rcases hp with event | ⟨quiet, rfl⟩
  · exact step_complete hr event
  · have nothing : s.popped [] = s := by rw [← quiet]; rfl
    rw [nothing, step_quiet hr quiet]

/-- Settles O14: the completion step is `State.complete`, and the assertion of rst puts the reset core in place. -/
theorem completionTransformsTheBlocks : Obligations.CompletionTransformsTheBlocks := by
  intro s rest hr
  refine ⟨fun hp idle => ?_, fun op sel busy hp => ?_, fun hp => ⟨_, step_setRst hp, rfl, Memory.read_zero⟩⟩
  · rw [step_complete hr hp, State.complete_of_idle (s := s.popped rest) idle]
    rfl
  · rw [step_completes hr hp, State.complete_of_busy (s := s.popped rest) busy]
    exact ⟨_, rfl, completedAs_finish s.draws (s.draws + 1) op sel rest s⟩

/-- Block `b` replaced by what the operation makes of it: a single-block command on a buffer (R93, R94). -/
def transformBlock (op : TransformOp) (k : Words4) (v : Variant) (b : BitVec 2) (m : Memory) : Memory :=
  storeBlock m b (transformPair op k v (loadBlock m b))

/-- Four lanes that hold the transformed blocks are interleaved to what four single-block commands leave: a command
on one block does not see that others have been written. -/
theorem interleave_eq_transformBlocks {op : TransformOp} {k : Words4} {v : Variant} {m : Memory} {l : Words4 × Words4}
    (hl : ∀ b, (l.1.get b, l.2.get b) = transformPair op k v (loadBlock m b)) :
    interleave m l =
      transformBlock op k v 3 (transformBlock op k v 2 (transformBlock op k v 1 (transformBlock op k v 0 m))) := by
  simp [interleave, transformBlock, hl, loadBlock_storeBlock_other]

/-- Settles O19: interleaving stores each lane as its block, and that block is the transformed one. -/
theorem fourBlockTransformEqualsFourSingleOnes : Obligations.FourBlockTransformEqualsFourSingleOnes := by
  refine fun c => ⟨interleave_eq_transformBlocks (op := .enc4) fun b => ?_,
    interleave_eq_transformBlocks (op := .dec4) fun b => ?_⟩
  · rw [← loadBlock_interleave c.dbuf]
    exact loadBlock_transformResult (op := .enc4) (sel := 0) c rfl
  · rw [← loadBlock_interleave c.dbuf]
    exact loadBlock_transformResult (op := .dec4) (sel := 0) c rfl

/-- The bytes of a cipher word, the most significant first (R10). -/
theorem Memory.lane_readBE (m : Memory) (a : Nat) {i : Nat} (hi : i < 4) : lane (m.readBE a) (3 - i) = m.read (a + i) := by
  apply BitVec.eq_of_getLsbD_eq
  intro n hn
  simp only [lane, Memory.readBE, BitVec.getLsbD_extractLsb', BitVec.getLsbD_append]
  interval_cases i <;> simp [hn] <;> grind

/-- Equal blocks have equal bytes (R82). -/
theorem read_eq_of_loadBlock_eq {m n : Memory} {b : BitVec 2} (h : loadBlock m b = loadBlock n b) {i : Nat} (hi : i < 8) :
    m.read (8 * b.toNat + i) = n.read (8 * b.toNat + i) := by
  obtain ⟨hx, hy⟩ := Prod.mk.inj h
  by_cases first : i < 4
  · rw [← m.lane_readBE _ first, ← n.lane_readBE _ first, hx]
  · have address : 8 * b.toNat + i = 8 * b.toNat + 4 + (i - 4) := by omega
    have second : i - 4 < 4 := by omega
    rw [address, ← m.lane_readBE _ second, ← n.lane_readBE _ second, hy]

/-- Two buffers in canonical form with the same four blocks, and the same bytes above them, are equal. -/
theorem Memory.eq_of_loadBlock {m n : Memory} (hm : m.wf dbufBytes = true) (hn : n.wf dbufBytes = true)
    (blocks : ∀ b, loadBlock m b = loadBlock n b) (above : ∀ a, dbufBytes ≤ a → m.read a = n.read a) : m = n := by
  refine Memory.eq_of_read hm hn fun a => ?_
  by_cases inside : a < dbufBytes
  · have index : (BitVec.ofNat 2 (a / 8)).toNat = a / 8 := Nat.mod_eq_of_lt (Nat.div_lt_of_lt_mul inside)
    have byte := read_eq_of_loadBlock_eq (blocks (BitVec.ofNat 2 (a / 8))) (Nat.mod_lt a (by decide))
    rwa [index, Nat.div_add_mod] at byte
  · exact above a (Nat.le_of_not_lt inside)

/-- The operation that undoes an operation (R81). -/
def TransformOp.inverse : TransformOp → TransformOp
  | .enc1 => .dec1
  | .dec1 => .enc1
  | .enc4 => .dec4
  | .dec4 => .enc4

theorem laneActive_inverse (op : TransformOp) (sel i : BitVec 2) : laneActive op.inverse sel i = laneActive op sel i := by
  cases op <;> rfl

theorem transformPair_inverse (op : TransformOp) (k : Words4) (v : Variant) (p : Word × Word) :
    transformPair op.inverse k v (transformPair op k v p) = p := by
  cases op with
  | enc1 | enc4 => exact teaDec_teaEnc k v p.1 p.2
  | dec1 | dec4 => exact teaEnc_teaDec k v p.1 p.2

/-- An operation and then its inverse restore the buffer, block by block (R81). -/
theorem transformResult_inverse {c : TeaCore} (op : TransformOp) (sel : BitVec 2) (h : c.dbuf.wf dbufBytes = true) :
    transformResult op.inverse sel { c with dbuf := transformResult op sel c } = c.dbuf := by
  refine Memory.eq_of_loadBlock (wf_transformResult op.inverse sel (wf_transformResult op sel h)) h (fun b => ?_)
    fun a ha => ?_
  · by_cases active : laneActive op sel b = true
    · rw [loadBlock_transformResult _ ((laneActive_inverse op sel b).trans active), loadBlock_transformResult c active,
        transformPair_inverse]
    · rw [loadBlock_transformResult_other _ (by rwa [laneActive_inverse]), loadBlock_transformResult_other c active]
  · rw [read_transformResult_outside _ (.inr ha), read_transformResult_outside c (.inr ha)]

/-- Settles O20: each of the four operations is undone by its inverse. -/
theorem decryptAfterEncryptRestoresDbuf : Obligations.DecryptAfterEncryptRestoresDbuf := fun _ b h =>
  ⟨transformResult_inverse .enc1 b h, transformResult_inverse .dec1 b h, transformResult_inverse .enc4 0 h,
    transformResult_inverse .dec4 0 h⟩

end Sys2Proof.Machine
end

section
/-! Every run comes to rest (R97, R149): each step takes one event from the list, and once the list is empty the quiet step
completes the command in flight. -/

namespace Sys2Proof.Machine

@[simp] theorem State.complete_pending (s : State) : s.complete.pending = s.pending := by
  unfold State.complete
  split <;> rfl

@[simp] theorem State.tick_pending (s : State) : s.tick.pending = s.pending := by
  unfold State.tick
  split
  · rfl
  · split
    · rfl
    · exact s.complete_pending

/-- Handling an event brings no other and takes none. -/
theorem handleEvent_pending {e : Event} {s t : State} (h : handleEvent e s = .next t) : t.pending = s.pending := by
  cases e with
  | bus tr =>
    simp only [handleEvent] at h
    split at h
    · cases h; rfl
    · obtain ⟨u, hu, ports⟩ := busTransaction_next tr s
      obtain rfl : u = t := by simpa [hu] using h
      exact ports.pending
  | tick =>
    cases h
    split
    · rfl
    · exact s.tick_pending
  | complete =>
    cases h
    split
    · rfl
    · exact s.complete_pending
  | rst b =>
    cases h
    rfl

/-- A step takes the first pending event from the list (R51). -/
theorem step_pending {s t : State} {e : Event} {rest : List Event} (hp : s.pending = e :: rest)
    (h : step s = .next t) : t.pending = rest :=
  handleEvent_pending ((step_event hp).symm.trans h)

/-- The sequencer is idle wherever rst is asserted, and a step keeps it so (R140). -/
theorem step_keeps_idle_in_reset {s t : State} (h : step s = .next t) (hi : s.rst = true → s.core.seq = .idle) :
    t.rst = true → t.core.seq = .idle := by
  intro asserted
  rcases step_rst h with same | ⟨b, rest, hp⟩
  · have hr : s.rst = true := same.symm.trans asserted
    rcases step_core_in_reset h hr with hc | hc
    · exact hc ▸ hi hr
    · exact hc ▸ rfl
  · cases (step_setRst hp).symm.trans h
    obtain rfl : b = true := asserted
    rfl

@[simp] theorem State.complete_seq (s : State) : s.complete.core.seq = .idle := by
  unfold State.complete
  split
  · assumption
  · rfl

/-- With nothing pending one step brings the machine to rest (R97; log 2). -/
theorem quietStep_quiescent {s : State} (hp : s.pending = []) (hi : s.rst = true → s.core.seq = .idle) :
    (quietStep s).Quiescent := by
  unfold quietStep
  split
  · exact ⟨hp, hi ‹_›⟩
  · exact ⟨s.complete_pending.trans hp, s.complete_seq⟩

/-- A run of the machine goes on from what its first step answers. -/
theorem run_succ {s t : State} (n : Nat) (h : step s = .next t) :
    Host.Core.run Sys2Proof.core (n + 1) s = Host.Core.run Sys2Proof.core n t := by
  have first : Sys2Proof.core.step s = .next t := h
  simp only [Host.Core.run, first]

/-- Settles O48, by induction on the pending events: each step takes one, the last one is the quiet step. -/
theorem everyRunComesToRest : Obligations.EveryRunComesToRest := by
  intro s hi
  induction hp : s.pending generalizing s with
  | nil =>
    have quiet : step s = .next (quietStep s) := by simp only [step, hp]
    exact ⟨quietStep s, run_succ 0 quiet, quietStep_quiescent hp hi⟩
  | cons e rest ih =>
    obtain ⟨t, h⟩ := step_next s
    obtain ⟨u, run, atRest⟩ := ih t (step_keeps_idle_in_reset h hi) (step_pending hp h)
    exact ⟨u, (run_succ (rest.length + 1) h).trans run, atRest⟩

end Sys2Proof.Machine
end

section
/-! The checks of a CMD write in their order (R90, R121): the first that fails gives the one code reported, and where
none fails the command is taken. -/

namespace Sys2Proof.Machine

/-- R121: a CMD write of `w` to the core `c` is rejected with this code, the first in the order of the checks. -/
inductive CmdRejected (w : Word) (c : TeaCore) : RejectCause → Prop where
  | busy (hb : c.busy = true) : CmdRejected w c .busy
  | illegal {why : IllegalReason} (hb : c.busy = false) (hd : decode w = .illegal why) : CmdRejected w c .illegal
  | keyLen {var : BitVec 2} (hb : c.busy = false) (hd : decode w = .command (.ldkey var)) (hk : c.keyinWr ≠ 15#4) :
      CmdRejected w c .keyLen
  | noKey {i : Instr} (hb : c.busy = false) (hi : isTransform i) (hd : decode w = .command i)
      (hk : c.keyValid = false) : CmdRejected w c .noKey

/-- No word decodes to LDKEY with the reserved variant code (R64). -/
theorem exists_variant_of_decode_ldkey {w : Word} {var : BitVec 2} (hd : decode w = .command (.ldkey var)) :
    ∃ v : Variant, v.code = var := by
  have legal := (wellFormed_and_encode_of_decode hd).1
  exact Variant.exists_code_eq fun reserved => by simp [Instr.wellFormed, reserved] at legal

theorem exec_ldkey_keyLen {s : State} (v : Variant) (hb : s.core.busy = false) (hk : s.core.keyinWr ≠ 15#4) :
    exec (.ldkey v.code) s = .next (s.reject .keyLen) := by
  have variant : Variant.ofCode? v.code = some v := Variant.ofCode?_eq_some.2 rfl
  simp [exec, execLdkey, whenIdle, hb, hk, variant]

/-- The four transform commands have one meaning, on their own operation and block (R90, R93 to R96). -/
theorem exec_of_isTransform {i : Instr} (hi : isTransform i) :
    ∃ op sel, ∀ s, exec i s = .next (acceptTransform op sel s) := by
  cases i with
  | ldkey var => exact absurd rfl (hi var)
  | enc1 sel => exact ⟨.enc1, sel, fun _ => rfl⟩
  | dec1 sel => exact ⟨.dec1, sel, fun _ => rfl⟩
  | enc4 => exact ⟨.enc4, 0, fun _ => rfl⟩
  | dec4 => exact ⟨.dec4, 0, fun _ => rfl⟩

theorem acceptTransform_noKey {s : State} (op : TransformOp) (sel : BitVec 2) (hb : s.core.busy = false)
    (hk : s.core.keyValid = false) : acceptTransform op sel s = s.reject .noKey := by
  simp [acceptTransform, whenIdle, hb, hk]

theorem handleCmd_of_rejected {w : Word} {s : State} {e : RejectCause} (h : CmdRejected w s.core e) :
    handleCmd w s = .next (s.reject e) := by
  cases h with
  | busy hb => exact handleCmd_of_busy w hb
  | illegal hb hd => exact handleCmd_of_idle_illegal hb hd
  | keyLen hb hd hk =>
    obtain ⟨v, rfl⟩ := exists_variant_of_decode_ldkey hd
    exact (handleCmd_of_command hd).trans (exec_ldkey_keyLen v hb hk)
  | noKey hb hi hd hk =>
    obtain ⟨op, sel, meaning⟩ := exec_of_isTransform hi
    rw [handleCmd_of_command hd, meaning, acceptTransform_noKey op sel hb hk]

/-- Where no check fails the key is loaded or a transform accepted: the write is rejected exactly as R121 says. -/
theorem cmdRejected_or_taken (w : Word) (s : State) :
    (∃ e, CmdRejected w s.core e) ∨
    (∃ v, handleCmd w s = .next { s with core := s.core.loadKey v }) ∨
    ∃ op sel, handleCmd w s = .next { s with core := s.core.accept op sel } := by
  cases hb : s.core.busy with
  | true => exact .inl ⟨_, .busy hb⟩
  | false =>
    cases hd : decode w with
    | illegal why => exact .inl ⟨_, .illegal hb hd⟩
    | command i =>
      by_cases ldkey : ∃ var, i = .ldkey var
      · obtain ⟨var, rfl⟩ := ldkey
        by_cases hk : s.core.keyinWr = 15#4
        · obtain ⟨v, rfl⟩ := exists_variant_of_decode_ldkey hd
          exact .inr (.inl ⟨v, (handleCmd_of_command hd).trans (exec_ldkey_accepted v hb hk)⟩)
        · exact .inl ⟨_, .keyLen hb hd hk⟩
      · have hi : isTransform i := fun var same => ldkey ⟨var, same⟩
        cases hk : s.core.keyValid with
        | false => exact .inl ⟨_, .noKey hb hi hd hk⟩
        | true =>
          obtain ⟨op, sel, meaning⟩ := exec_of_isTransform hi
          refine .inr (.inr ⟨op, sel, ?_⟩)
          rw [handleCmd_of_command hd, meaning, acceptTransform_accepted op sel hb hk]

/-- A rejected CMD write is answered without a bus error and sets ERR and ERRCODE (R12, R120). -/
theorem step_cmdWrite_rejected {s : State} {w : Word} {e : RejectCause} {rest : List Event} (hr : s.rst = false)
    (hp : s.pending = cmdWrite w :: rest) (h : CmdRejected w s.core e) :
    step s = .next (afterRejection s rest e.code) := by
  rw [step_cmdWrite hr hp]
  exact handleCmd_of_rejected h

/-- A DATA write while BUSY is rejected (R36). -/
theorem step_data_rejected {s : State} {j : BitVec 3} {w : Word} {rest : List Event} (hr : s.rst = false)
    (hp : s.pending = hostWR (.data j) w :: rest) (hb : s.core.busy = true) :
    step s = .next (afterRejection s rest 4) := by
  have written : step s = .next (afterWrite s rest (s.core.writeData j w)) := step_hostWR hr hp
  rw [written, TeaCore.writeData_of_busy j w hb]
  rfl

/-- Settles O8: every event is handled, and so is the quiet step; a command is rejected, loads the key or is accepted. -/
theorem everyStepAnswersANextState : Obligations.EveryStepAnswersANextState :=
  ⟨step_next, fun i s => (exec_next i s).imp fun _ h => h.1⟩

/-- Settles O9: the access is a bus error, which only answers the write, or the write `CmdRejected` is about. -/
theorem commandChecksInOrder : Obligations.CommandChecksInOrder := by
  intro s off size w rest hr hp inCmd
  refine ⟨fun bad => ?_, ?_⟩
  · have misaligned : off ≠ 0 → off.toNat % 4 ≠ 0 := fun ho => by
      have : off.toNat ≠ 0 := fun zero => ho (BitVec.eq_of_toNat_eq zero)
      omega
    have busError := (busErrorsChangeNothing s _ rest hr hp).1 (bad.imp_right misaligned)
    exact busError.2 off size w rfl
  · rintro rfl rfl
    have rejected {e : RejectCause} (h : CmdRejected w s.core e) : step s = .next (afterRejection s rest e.code) :=
      step_cmdWrite_rejected hr hp h
    exact ⟨fun hb => rejected (.busy hb), fun hb ⟨_, hd⟩ => rejected (.illegal hb hd),
      fun hb ⟨_, hd⟩ hk => rejected (.keyLen hb hd hk), fun hb ⟨_, hi, hd⟩ hk => rejected (.noKey hb hi hd hk)⟩

end Sys2Proof.Machine
end

section
/-! What sets and clears DONE and ERR (R125), and the interrupt output made of them (R126). -/

namespace Sys2Proof.Machine

/-- R125: LDKEY and completion set DONE, no other move does. -/
theorem StepMove.done_rises {s : State} {d : TeaCore} (h : StepMove s d) (clear : s.core.done = false)
    (raised : d.done = true) : AcceptsLdkey s ∨ (s.core.busy = true ∧ d.busy = false) := by
  cases h with
  | loadKey v ha => exact .inl ha
  | finish n op sel hb => exact .inr ⟨hb, rfl⟩
  | reset he => exact absurd raised (by decide)
  | _ => simp [clear] at raised

/-- R125: a STATUS write with bit 1 set, acceptance and reset clear DONE, no other move does. -/
theorem StepMove.done_falls {s : State} {d : TeaCore} (h : StepMove s d) (held : s.core.done = true)
    (clear : d.done = false) :
    (∃ w rest, s.pending = hostWR .status w :: rest ∧ w.getLsbD 1 = true) ∨
    (s.core.busy = false ∧ d.busy = true) ∨ EntersReset s := by
  cases h with
  | status w rest hr hp => exact .inl ⟨w, rest, hp, by simpa [held] using clear⟩
  | accept op sel hb => exact .inr (.inl ⟨hb, rfl⟩)
  | reset he => exact .inr (.inr he)
  | _ => simp [held] at clear

/-- R125: a STATUS write with bit 2 set and reset clear ERR, no other move does. -/
theorem StepMove.err_falls {s : State} {d : TeaCore} (h : StepMove s d) (held : s.core.err = true)
    (clear : d.err = false) :
    (∃ w rest, s.pending = hostWR .status w :: rest ∧ w.getLsbD 2 = true) ∨ EntersReset s := by
  cases h with
  | status w rest hr hp => exact .inl ⟨w, rest, hp, by simpa [held] using clear⟩
  | reset he => exact .inr he
  | _ => simp [held] at clear

/-- A command in flight ends by completion, which sets DONE (R97), or in reset. -/
theorem StepMove.done_of_busy_falls {s : State} {d : TeaCore} (h : StepMove s d) (busy : s.core.busy = true)
    (idle : d.busy = false) (notReset : ¬EntersReset s) : d.done = true := by
  have notIdle {P : Prop} (hb : s.core.busy = false) : P := absurd busy (by simp [hb])
  cases h with
  | finish n op sel hb => rfl
  | data j w rest hr hb hp => exact notIdle hb
  | reset he => exact absurd he notReset
  | _ => simp [busy] at idle

/-- A command comes into flight by acceptance, which clears DONE (R91). -/
theorem StepMove.done_of_busy_rises {s : State} {d : TeaCore} (h : StepMove s d) (idle : s.core.busy = false)
    (busy : d.busy = true) : d.done = false := by
  cases h with
  | accept op sel hb => rfl
  | data j w rest hr hb hp => exact absurd (idle.symm.trans busy) Bool.false_ne_true
  | reset he => rfl
  | _ => simp [idle] at busy

/-- A rejected CMD write fails one of the checks that the statements list. -/
theorem CmdRejected.failsACheck {s : State} {w : Word} {e : RejectCause} {rest : List Event}
    (h : CmdRejected w s.core e) (hr : s.rst = false) (hp : s.pending = cmdWrite w :: rest) : FailsACheck s := by
  refine ⟨hr, .inl ⟨w, rest, hp, ?_⟩⟩
  cases h with
  | busy hb => exact .inl hb
  | illegal _ hd => exact .inr (.inl ⟨_, hd⟩)
  | keyLen _ hd hk => exact .inr (.inr (.inl ⟨⟨_, hd⟩, hk⟩))
  | noKey _ hi hd hk => exact .inr (.inr (.inr ⟨⟨_, hi, hd⟩, hk⟩))

/-- R12, R120: where ERR rises, a CMD or DATA write has failed a check, and the step is its rejection. -/
theorem step_err_rises {s t : State} (h : step s = .next t) (clear : s.core.err = false) (raised : t.core.err = true) :
    FailsACheck s ∧ ∃ e rest, ∃ cause : RejectCause,
      s.pending = e :: rest ∧ t = afterRejection s rest cause.code := by
  rcases step_cases h with hc | ⟨hc, -⟩ | ⟨hr, r, w, rest, hp, hw⟩ | ⟨-, op, sel, -, hc | ⟨n, hc⟩⟩
  · simp [hc, clear] at raised
  · simp [hc, TeaCore.reset] at raised
  · cases r with
    | cmd =>
      rcases cmdRejected_or_taken w ((s.popped rest).respond (.write false)) with
        ⟨e, rejected⟩ | ⟨v, taken⟩ | ⟨op, sel, taken⟩
      · cases (step_cmdWrite_rejected hr hp rejected).symm.trans h
        exact ⟨CmdRejected.failsACheck rejected hr hp, _, rest, e, hp, rfl⟩
      · cases taken.symm.trans hw
        simp [clear] at raised
      · cases taken.symm.trans hw
        simp [clear] at raised
    | data j =>
      cases hb : s.core.busy with
      | true =>
        cases (step_data_rejected hr hp hb).symm.trans h
        exact ⟨⟨hr, .inr ⟨hb, j, w, rest, hp⟩⟩, _, rest, .busy, hp, rfl⟩
      | false =>
        cases hw
        simp [TeaCore.writeData_of_idle j w (c := s.core) hb, clear] at raised
    | _ =>
      cases hw
      simp [clear] at raised
  · simp [hc, clear] at raised
  · simp [hc, clear] at raised

theorem RejectCause.code_mem (e : RejectCause) : e.code ∈ ([1, 2, 3, 4] : List (BitVec 4)) := by
  cases e <;> decide

/-- An LDKEY that passes the checks of R90 sets DONE (R92). -/
theorem step_done_of_acceptsLdkey {s : State} (h : AcceptsLdkey s) : ∃ t, step s = .next t ∧ t.core.done = true := by
  obtain ⟨hr, hb, hk, w, var, rest, hp, hd⟩ := h
  obtain ⟨v, rfl⟩ := exists_variant_of_decode_ldkey hd
  exact ⟨_, (step_cmdWrite_of_command hr hp hd).trans (exec_ldkey_accepted v hb hk), rfl⟩

/-- What holds of a state that the step answers holds of the one it answers: there is only one. -/
theorem of_step_eq_next {P : State → Prop} {s t : State} (h : step s = .next t)
    (answered : ∃ u, step s = .next u ∧ P u) : P t := by
  obtain ⟨u, hu, holds⟩ := answered
  cases hu.symm.trans h
  exact holds

theorem step_core_of_entersReset {s t : State} (h : step s = .next t) (he : EntersReset s) : t.core = TeaCore.reset := by
  obtain ⟨rest, hp⟩ := he
  cases (step_setRst hp).symm.trans h
  rfl

/-- Settles O28: that nothing else moves a flag is read off the moves one step can make, with `step_err_rises` for the
rejections; that the listed events do move it, off their own steps and the moves that change BUSY. -/
theorem flagsSetAndClearedOnlyAsListed : Obligations.FlagsSetAndClearedOnlyAsListed := by
  refine ⟨fun s t h => ?_, fun s t h => ?_, fun c => ?_⟩
  · have move := step_stepMove h
    refine ⟨move.done_rises, move.done_falls, fun clear raised => ?_, move.err_falls⟩
    obtain ⟨failed, e, rest, cause, hp, rejected⟩ := step_err_rises h clear raised
    exact ⟨failed, e, rest, cause.code, hp, cause.code_mem, rejected⟩
  · refine ⟨?_, ?_, ?_, ?_⟩
    · rintro (ldkey | ⟨busy, idle, notReset⟩)
      · exact of_step_eq_next h (step_done_of_acceptsLdkey ldkey)
      · exact (step_stepMove h).done_of_busy_falls busy idle notReset
    · rintro (⟨hr, w, rest, hp, bit⟩ | ⟨idle, busy⟩ | he)
      · cases (step_hostWR hr hp).symm.trans h
        simp [bit]
      · exact (step_stepMove h).done_of_busy_rises idle busy
      · exact congrArg TeaCore.done (step_core_of_entersReset h he)
    · exact fun failed => of_step_eq_next h (step_sets_err failed)
    · rintro (⟨hr, w, rest, hp, bit⟩ | he)
      · cases (step_hostWR hr hp).symm.trans h
        simp [bit]
      · exact congrArg TeaCore.err (step_core_of_entersReset h he)
  · simp [TeaCore.irq]

/-- R126 after a CTRL write: each part of the output is its flag under the enable just written. -/
theorem TeaCore.irq_writeCtrl (c : TeaCore) (w : Word) :
    (c.writeCtrl w).irq = ((c.done && w.getLsbD 0) || (c.err && w.getLsbD 1)) := rfl

/-- Settles O39: the output by its definition, and after a CTRL write by `TeaCore.irq_writeCtrl`. -/
theorem interruptOutputIsALevel : Obligations.InterruptOutputIsALevel := by
  intro c
  refine ⟨rfl, fun line => ?_, fun w => ⟨rfl, rfl, fun b0 b1 => ?_, fun b0 => ?_, fun b1 => ?_⟩⟩
  · rw [TeaCore.irqOnLine, beq_eq_decide]
  · rw [TeaCore.irq_writeCtrl, b0, b1, Bool.and_false, Bool.and_false, Bool.or_false]
  · rw [TeaCore.irq_writeCtrl, b0, Bool.and_false, Bool.false_or]
  · rw [TeaCore.irq_writeCtrl, b1, Bool.and_false, Bool.or_false]

end Sys2Proof.Machine
end

section
/-! A transaction and then a completion, as R122 orders the two of one cycle: no transaction ends the command in
flight. -/

namespace Sys2Proof.Machine

/-- Of the writes that could end a command in flight CMD and DATA are rejected (R90, R36), and the other registers do not
hold SEQ. -/
theorem regWrite_keeps_busy {r : Reg} {w : Word} {s t : State} (hb : s.core.busy = true)
    (h : r.write w s = .next t) : t.core.busy = true := by
  cases r with
  | cmd =>
    cases (handleCmd_of_busy w hb).symm.trans h
    exact hb
  | data j =>
    cases h
    rw [TeaCore.writeData_of_busy j w hb]
    exact hb
  | _ =>
    cases h
    exact hb

theorem step_bus_keeps_busy {s t : State} {tr : Transaction} {rest : List Event} (hr : s.rst = false)
    (hp : s.pending = .bus tr :: rest) (hb : s.core.busy = true) (h : step s = .next t) : t.core.busy = true := by
  rcases busTransaction_cases ((step_bus_released hr hp).symm.trans h) with kept | ⟨r, w, -, written⟩
  · rwa [kept]
  · exact regWrite_keeps_busy (s := (s.popped rest).respond (.write false)) hb written

/-- The completion event ends the command in flight with DONE = 1 (R97). -/
theorem step_complete_of_busy {s : State} {rest : List Event} (hr : s.rst = false) (hp : s.pending = .complete :: rest)
    (hb : s.core.busy = true) : ∃ t, step s = .next t ∧ t.core.busy = false ∧ t.core.done = true := by
  obtain ⟨t, h, done⟩ := step_complete_sets_done hr hp hb
  refine ⟨t, h, ?_, done⟩
  cases (step_complete hr hp).symm.trans h
  exact TeaCore.busy_eq_false.2 (State.complete_seq _)

/-- Settles O40: the transaction is answered and keeps the command in flight, so the completion after it is enabled; and
while BUSY a CMD or DATA write is rejected and a DATA read is of the bytes that are there. -/
theorem transactionGoesBeforeCompletion : Obligations.TransactionGoesBeforeCompletion := by
  intro s tr later hr hb hp
  obtain ⟨u, hu, ports⟩ := step_bus hr hp
  obtain ⟨v, hv, idle, done⟩ :=
    step_complete_of_busy (ports.rst.trans hr) ports.pending (step_bus_keeps_busy hr hp hb hu)
  refine ⟨u, v, hu, hv, idle, done, ?_, ?_⟩
  · rintro w (write | ⟨j, write⟩) <;> rw [write] at hp
    · cases (step_cmdWrite_rejected hr hp (.busy hb)).symm.trans hu
      rfl
    · cases (step_data_rejected hr hp hb).symm.trans hu
      rfl
  · intro j read
    rw [read] at hp
    cases (step_read hr hp).symm.trans hu
    rfl

end Sys2Proof.Machine
end

section
/-! Hazards and reset (70_reset_and_hazards.md): writes that meet a BUSY core (R144), the key that must be staged before
each LDKEY (R142, R147), the commands of a core without a key (R141), and transactions while rst is asserted (R140). -/

namespace Sys2Proof.Machine

/-- Settles O41: each write is the step of its own register; those of CMD and DATA fail the BUSY check. -/
theorem writesWhileBusy : Obligations.WritesWhileBusy := by
  intro s w rest hr hb
  refine ⟨?_, fun hp => step_hostWR hr hp, fun hp => step_hostWR hr hp, fun i hp => step_hostWR hr hp⟩
  rintro (hp | ⟨j, hp⟩)
  · exact step_cmdWrite_rejected hr hp (.busy hb)
  · exact step_data_rejected hr hp hb

@[simp] theorem stageKey_nil (c : TeaCore) : stageKey [] c = c := rfl

@[simp] theorem stageKey_cons (i : BitVec 2) (w : Word) (writes : List (BitVec 2 × Word)) (c : TeaCore) :
    stageKey ((i, w) :: writes) c = stageKey writes (c.writeKeyIn i w) := rfl

/-- KEY_IN writes start and end no command. -/
@[simp] theorem stageKey_busy (writes : List (BitVec 2 × Word)) (c : TeaCore) : (stageKey writes c).busy = c.busy := by
  induction writes generalizing c with
  | nil => rfl
  | cons p writes ih => exact (ih _).trans (c.writeKeyIn_busy p.1 p.2)

/-- After KEY_IN writes in any order, KEYIN_WR marks the words marked before and those written (R34). -/
theorem getLsbD_stageKey_keyinWr (writes : List (BitVec 2 × Word)) (c : TeaCore) (i : BitVec 2) :
    (stageKey writes c).keyinWr.getLsbD i.toNat = true ↔
      c.keyinWr.getLsbD i.toNat = true ∨ ∃ w, (i, w) ∈ writes := by
  induction writes generalizing c with
  | nil => simp
  | cons p writes ih =>
    obtain ⟨k, v⟩ := p
    have bit := c.getLsbD_writeKeyIn_keyinWr k v i.isLt
    have sameReg : i.toNat = k.toNat ↔ i = k := BitVec.toNat_inj
    rw [stageKey_cons, ih, bit, Bool.or_eq_true, decide_eq_true_iff, sameReg, or_assoc]
    simp [exists_or]

/-- KEYIN_WR = 1111 says that every one of the four words is marked (R25). -/
theorem keyinWr_eq_all_iff {marks : BitVec 4} : marks = 15#4 ↔ ∀ i : BitVec 2, marks.getLsbD i.toNat = true := by
  revert marks
  decide

/-- Settles O42: LDKEY clears KEYIN_WR, so the words marked when the next one comes are those written since
(`getLsbD_stageKey_keyinWr`), and LDKEY asks for all four marks. -/
theorem keyMustBeStagedAgain : Obligations.KeyMustBeStagedAgain := by
  intro s t v v' hb hk h
  cases (exec_ldkey_accepted v hb hk).symm.trans h
  have cleared : (s.core.loadKey v).keyinWr ≠ 15#4 := by simp
  refine ⟨exec_ldkey_keyLen v' hb cleared, ?_⟩
  rintro writes u rfl
  have idle : (stageKey writes (s.core.loadKey v)).busy = false := (stageKey_busy _ _).trans hb
  have marked (i : BitVec 2) : (stageKey writes (s.core.loadKey v)).keyinWr.getLsbD i.toNat = true ↔
      ∃ w, (i, w) ∈ writes := by simp [getLsbD_stageKey_keyinWr]
  constructor
  · intro allWritten
    have staged : (stageKey writes (s.core.loadKey v)).keyinWr = 15#4 :=
      keyinWr_eq_all_iff.2 fun i => (marked i).2 (allWritten i)
    exact ⟨staged, exec_ldkey_accepted v' idle staged⟩
  · intro i notWritten
    have unmarked : ¬(stageKey writes (s.core.loadKey v)).keyinWr.getLsbD i.toNat = true := fun bit =>
      ((marked i).1 bit).elim notWritten
    exact ⟨Bool.eq_false_iff.2 unmarked,
      exec_ldkey_keyLen v' idle fun staged => unmarked (keyinWr_eq_all_iff.1 staged i)⟩

theorem exec_transform_noKey {s : State} {i : Instr} (hi : isTransform i) (hb : s.core.busy = false)
    (hk : s.core.keyValid = false) : exec i s = .next (s.reject .noKey) := by
  obtain ⟨op, sel, meaning⟩ := exec_of_isTransform hi
  rw [meaning, acceptTransform_noKey op sel hb hk]

/-- Without a key, only LDKEY with all four words staged gets past the checks of R90: a rejection leaves BUSY and
KEY_VALID, and acceptance of a transform needs the key. -/
theorem exec_takes_only_ldkey {s t : State} {i : Instr} (hb : s.core.busy = false) (hk : s.core.keyValid = false)
    (h : exec i s = .next t) (taken : t.core.busy = true ∨ t.core.keyValid = true) :
    s.core.keyinWr = 15#4 ∧ ∃ v : Variant, i = .ldkey v.code := by
  rcases exec_cases i s with ⟨e, rejected⟩ | ⟨-, staged, v, hi, -⟩ | ⟨-, keyed, -⟩
  · cases rejected.symm.trans h
    simp [hb, hk] at taken
  · exact ⟨staged, v, hi⟩
  · exact absurd (hk.symm.trans keyed) Bool.false_ne_true

/-- Settles O47: the reset values by their definition; without a key, each command's failed check or
`exec_takes_only_ldkey`. -/
theorem firstAcceptedCommandIsLdkey : Obligations.FirstAcceptedCommandIsLdkey :=
  ⟨rfl, rfl, rfl, rfl, rfl, fun _ hb hk =>
    ⟨fun _ hi => exec_transform_noKey hi hb hk, fun unstaged v => exec_ldkey_keyLen v hb unstaged,
      fun _ _ h taken => exec_takes_only_ldkey hb hk h taken⟩⟩

/-- Settles O46: the step is `busInReset`, which gives the response and draws its free value. -/
theorem noTransactionIsTakenInReset : Obligations.NoTransactionIsTakenInReset := fun s t _ hr hp =>
  ⟨_, heldInResetResponse t s.draws, step_bus_in_reset hr hp, rfl, hr, rfl, rfl⟩

end Sys2Proof.Machine
end

section
/-! Words of 95_test_vectors.md section 2.7: each legal one is its command's encoding, so the round trip decodes it; the
word of LDKEY with VAR = 11 carries legal fields but the reserved variant code (R64). -/

namespace Sys2Proof

/-- R64: with RES_HI, RES_MID and SEL zero, VAR = 11 is the one thing wrong with the word. -/
theorem decode_ldkey_reservedVariant : decode (encode (.ldkey 3)) = .illegal .reservedVariant := by
  simp [decode, encode]

/-- Settles O1: the five legal words by the round trip `decode_encode`, the sixth by its reserved variant. -/
theorem decodesWordsOfTheCommandTable : Obligations.DecodesWordsOfTheCommandTable := by
  have ldkeyTea32 : encode (.ldkey 1) = 0x00000011 := rfl
  have enc1Block3 : encode (.enc1 3) = 0x00000302 := rfl
  have dec1Block2 : encode (.dec1 2) = 0x00000203 := rfl
  have enc4Word : encode .enc4 = 0x00000004 := rfl
  have dec4Word : encode .dec4 = 0x00000005 := rfl
  have reservedWord : encode (.ldkey 3) = 0x00000031 := rfl
  exact ⟨ldkeyTea32 ▸ decode_encode rfl, enc1Block3 ▸ decode_encode rfl, dec1Block2 ▸ decode_encode rfl,
    enc4Word ▸ decode_encode rfl, dec4Word ▸ decode_encode rfl, reservedWord ▸ decode_ldkey_reservedVariant⟩

end Sys2Proof
end
